-- ==== Sys2Proof/Word.lean ====
section
/-! DEFINITION. The machine's word sizes (spec 30_encoding.md R73, 10_state.md R20, R24). Everything is unsigned
(00_scope.md R7), so a width is all a type has to say. -/

namespace Sys2Proof

/-- A byte: a general register, a timer, a memory cell (R20, R30, R32). -/
abbrev Byte := BitVec 8

/-- Sixteen bits: an opcode, `PC`, `I`, a return address (R24, R27, R28). -/
abbrev Word := BitVec 16

/-- A four-bit field of an opcode: `X`, `Y` or `N`, and so a register index (R73). -/
abbrev Nibble := BitVec 4

/-- The twelve-bit field `NNN` of an opcode (R73). -/
abbrev Addr := BitVec 12

end Sys2Proof
end

