-- ==== Sys2Proof/Config.lean ====
section
/-! DEFINITION. The constants the source fixes (spec 00_scope.md R4) and the one free value of the model, the random
byte of CXNN. The parameters the source leaves to the implementer (R5) are in Machine/Params.lean. -/

namespace Sys2Proof.Config

/-- `MEM_SIZE`: 4096 bytes (R4). -/
abbrev memSize : Nat := 4096

/-- `PROG_BASE`: where a program is loaded and where execution starts (R4). -/
abbrev progBase : Nat := 0x200

/-- `STACK_DEPTH`: 16 entries (R4, R28). -/
abbrev stackDepth : Nat := 16

/-- The longest program `LOAD` accepts: 3584 bytes, memory's size less `PROG_BASE` (70_reset_and_hazards.md R234). -/
abbrev maxProgram : Nat := 3584

/-- FREE VALUE (log entry 2). The `n`-th random byte, the input `rnd` of the `CYCLE` that executes the `n`-th CXNN
(41_load_and_alu.md R131, decision D7): no rule constrains it, and nothing in Lean can evaluate it. A claim that
holds of this machine holds for every sequence of bytes. -/
opaque rnd : Nat → BitVec 8

end Sys2Proof.Config
end

