-- ==== Sys2Proof/Syntax.lean ====
section
/-! DEFINITION. The instruction set: one constructor per row of spec/opcode_table.json, in the table's order, with the
fields the row's pattern has (spec 30_encoding.md R73, R74, R76). A field's type is exactly the field's width, so that
every term is an instruction of the machine. -/

namespace Sys2Proof

/-- The 34 instructions (R76). `x`, `y` are register indices, `n` a sprite height, `nn` an immediate byte, `nnn` an
address. 8XY6 and 8XYE encode a `y` that the hardware ignores (R128, R130): it is kept, since it is part of the word. -/
inductive Instr where
  | cls
  | ret
  | jp (nnn : Addr)
  | call (nnn : Addr)
  | se (x : Nibble) (nn : Byte)
  | sne (x : Nibble) (nn : Byte)
  | ser (x y : Nibble)
  | ldi (x : Nibble) (nn : Byte)
  | addi (x : Nibble) (nn : Byte)
  | mov (x y : Nibble)
  | or (x y : Nibble)
  | and (x y : Nibble)
  | xor (x y : Nibble)
  | add (x y : Nibble)
  | sub (x y : Nibble)
  | shr (x y : Nibble)
  | subn (x y : Nibble)
  | shl (x y : Nibble)
  | sner (x y : Nibble)
  | ldx (nnn : Addr)
  | jp0 (nnn : Addr)
  | rnd (x : Nibble) (nn : Byte)
  | drw (x y n : Nibble)
  | skp (x : Nibble)
  | sknp (x : Nibble)
  | gdt (x : Nibble)
  | wkey (x : Nibble)
  | sdt (x : Nibble)
  | sst (x : Nibble)
  | addx (x : Nibble)
  | font (x : Nibble)
  | bcd (x : Nibble)
  | stm (x : Nibble)
  | ldm (x : Nibble)
  deriving DecidableEq, Repr

/-- The mnemonic of an instruction, as spec/opcode_table.json spells it (R76, R80). -/
def Instr.mnemonic : Instr → String
  | .cls => "CLS"
  | .ret => "RET"
  | .jp _ => "JP"
  | .call _ => "CALL"
  | .se _ _ => "SE"
  | .sne _ _ => "SNE"
  | .ser _ _ => "SER"
  | .ldi _ _ => "LDI"
  | .addi _ _ => "ADDI"
  | .mov _ _ => "MOV"
  | .or _ _ => "OR"
  | .and _ _ => "AND"
  | .xor _ _ => "XOR"
  | .add _ _ => "ADD"
  | .sub _ _ => "SUB"
  | .shr _ _ => "SHR"
  | .subn _ _ => "SUBN"
  | .shl _ _ => "SHL"
  | .sner _ _ => "SNER"
  | .ldx _ => "LDX"
  | .jp0 _ => "JP0"
  | .rnd _ _ => "RND"
  | .drw _ _ _ => "DRW"
  | .skp _ => "SKP"
  | .sknp _ => "SKNP"
  | .gdt _ => "GDT"
  | .wkey _ => "WKEY"
  | .sdt _ => "SDT"
  | .sst _ => "SST"
  | .addx _ => "ADDX"
  | .font _ => "FONT"
  | .bcd _ => "BCD"
  | .stm _ => "STM"
  | .ldm _ => "LDM"

end Sys2Proof
end

