-- ==== Sys2Proof/WellFormed.lean ====
section
/-! DEFINITION. The opcode map as the spec prints it (30_encoding.md R76), and the static checks: which words are
opcodes of the map (R71), which byte sequences `LOAD` accepts (70_reset_and_hazards.md R234), and which instructions
keep the spec's duty on jump targets (R242). An instruction needs no check of its own fields: their types are the
fields' widths (log entry 27). -/

namespace Sys2Proof

/-- One row of the opcode map: the word `op` is this row's instruction exactly when `op &&& mask = pattern`. -/
structure OpcodeRow where
  mnemonic : String
  pattern : Word
  mask : Word
  deriving DecidableEq, Repr

/-- The complete map, in the table's order (R76). -/
def opcodeTable : List OpcodeRow := [
  ⟨"CLS", 0x00E0#16, 0xFFFF#16⟩,
  ⟨"RET", 0x00EE#16, 0xFFFF#16⟩,
  ⟨"JP", 0x1000#16, 0xF000#16⟩,
  ⟨"CALL", 0x2000#16, 0xF000#16⟩,
  ⟨"SE", 0x3000#16, 0xF000#16⟩,
  ⟨"SNE", 0x4000#16, 0xF000#16⟩,
  ⟨"SER", 0x5000#16, 0xF00F#16⟩,
  ⟨"LDI", 0x6000#16, 0xF000#16⟩,
  ⟨"ADDI", 0x7000#16, 0xF000#16⟩,
  ⟨"MOV", 0x8000#16, 0xF00F#16⟩,
  ⟨"OR", 0x8001#16, 0xF00F#16⟩,
  ⟨"AND", 0x8002#16, 0xF00F#16⟩,
  ⟨"XOR", 0x8003#16, 0xF00F#16⟩,
  ⟨"ADD", 0x8004#16, 0xF00F#16⟩,
  ⟨"SUB", 0x8005#16, 0xF00F#16⟩,
  ⟨"SHR", 0x8006#16, 0xF00F#16⟩,
  ⟨"SUBN", 0x8007#16, 0xF00F#16⟩,
  ⟨"SHL", 0x800E#16, 0xF00F#16⟩,
  ⟨"SNER", 0x9000#16, 0xF00F#16⟩,
  ⟨"LDX", 0xA000#16, 0xF000#16⟩,
  ⟨"JP0", 0xB000#16, 0xF000#16⟩,
  ⟨"RND", 0xC000#16, 0xF000#16⟩,
  ⟨"DRW", 0xD000#16, 0xF000#16⟩,
  ⟨"SKP", 0xE09E#16, 0xF0FF#16⟩,
  ⟨"SKNP", 0xE0A1#16, 0xF0FF#16⟩,
  ⟨"GDT", 0xF007#16, 0xF0FF#16⟩,
  ⟨"WKEY", 0xF00A#16, 0xF0FF#16⟩,
  ⟨"SDT", 0xF015#16, 0xF0FF#16⟩,
  ⟨"SST", 0xF018#16, 0xF0FF#16⟩,
  ⟨"ADDX", 0xF01E#16, 0xF0FF#16⟩,
  ⟨"FONT", 0xF029#16, 0xF0FF#16⟩,
  ⟨"BCD", 0xF033#16, 0xF0FF#16⟩,
  ⟨"STM", 0xF055#16, 0xF0FF#16⟩,
  ⟨"LDM", 0xF065#16, 0xF0FF#16⟩]

/-- `op & mask = match` (R71). -/
def OpcodeRow.matchesWord (r : OpcodeRow) (w : Word) : Bool := w &&& r.mask == r.pattern

/-- The word is an opcode of the map; every other word is unknown (R71, R77). -/
def Opcode.wellFormed (w : Word) : Bool := opcodeTable.any fun r => r.matchesWord w

/-- The program fits in memory above 0x200, so that `LOAD` does not reject it for its length (R234). -/
def Program.fits (bytes : List Byte) : Bool := decide (bytes.length ≤ Config.maxProgram)

/-- The duty on programs of R242 (a) as far as the instruction alone shows it: a jump or call target is even. The
hardware does not check it (10_state.md R26) and neither does the machine. -/
def Instr.targetEven : Instr → Bool
  | .jp nnn => nnn.toNat % 2 == 0
  | .call nnn => nnn.toNat % 2 == 0
  | _ => true

end Sys2Proof
end

