-- ==== Sys2Proof/Decode.lean ====
section
/-! DEFINITION. Decoding and encoding (spec 30_encoding.md R71 to R77). The decoder is total on words and on byte
sequences, and rejects by name what the opcode map does not hold. -/

namespace Sys2Proof

/-- Why a word or a byte sequence is no instruction: the class of the unknown opcode, as the rows of R77 group them,
or a sequence shorter than the two bytes of an opcode (R72). -/
inductive DecodeReject where
  | unknownClass0 | unknownClass5 | unknownClass8 | unknownClass9 | unknownClassE | unknownClassF
  | truncated
  deriving DecidableEq, Repr

/-! ### The fields of an opcode (R73) -/

/-- The class, bits 15..12. -/
def fieldClass (w : Word) : Nibble := w.extractLsb' 12 4
/-- `X`, bits 11..8. -/
def fieldX (w : Word) : Nibble := w.extractLsb' 8 4
/-- `Y`, bits 7..4. -/
def fieldY (w : Word) : Nibble := w.extractLsb' 4 4
/-- `N`, bits 3..0. -/
def fieldN (w : Word) : Nibble := w.extractLsb' 0 4
/-- `NN`, bits 7..0. -/
def fieldNN (w : Word) : Byte := w.extractLsb' 0 8
/-- `NNN`, bits 11..0. -/
def fieldNNN (w : Word) : Addr := w.extractLsb' 0 12

/-- Class 0: only 00E0 and 00EE; the exact match is the spec's reading of the patterns (R77, log entry 13). -/
def decodeClass0 (w : Word) : Except DecodeReject Instr :=
  if w = 0x00E0#16 then .ok .cls else if w = 0x00EE#16 then .ok .ret else .error .unknownClass0

/-- Class 8: the register-to-register instructions, selected by `N` (R76 rows 10 to 18). -/
def decodeClass8 (w : Word) : Except DecodeReject Instr :=
  let x := fieldX w
  let y := fieldY w
  let n := fieldN w
  if n = 0x0#4 then .ok (.mov x y)
  else if n = 0x1#4 then .ok (.or x y)
  else if n = 0x2#4 then .ok (.and x y)
  else if n = 0x3#4 then .ok (.xor x y)
  else if n = 0x4#4 then .ok (.add x y)
  else if n = 0x5#4 then .ok (.sub x y)
  else if n = 0x6#4 then .ok (.shr x y)
  else if n = 0x7#4 then .ok (.subn x y)
  else if n = 0xE#4 then .ok (.shl x y)
  else .error .unknownClass8

/-- Class E: the keypad skips, selected by `NN` (R76 rows 24 and 25). -/
def decodeClassE (w : Word) : Except DecodeReject Instr :=
  let x := fieldX w
  let nn := fieldNN w
  if nn = 0x9E#8 then .ok (.skp x)
  else if nn = 0xA1#8 then .ok (.sknp x)
  else .error .unknownClassE

/-- Class F, selected by `NN` (R76 rows 26 to 34). -/
def decodeClassF (w : Word) : Except DecodeReject Instr :=
  let x := fieldX w
  let nn := fieldNN w
  if nn = 0x07#8 then .ok (.gdt x)
  else if nn = 0x0A#8 then .ok (.wkey x)
  else if nn = 0x15#8 then .ok (.sdt x)
  else if nn = 0x18#8 then .ok (.sst x)
  else if nn = 0x1E#8 then .ok (.addx x)
  else if nn = 0x29#8 then .ok (.font x)
  else if nn = 0x33#8 then .ok (.bcd x)
  else if nn = 0x55#8 then .ok (.stm x)
  else if nn = 0x65#8 then .ok (.ldm x)
  else .error .unknownClassF

/-- `decode(op)` (R71): a total function of the word alone. -/
def decode (w : Word) : Except DecodeReject Instr :=
  let c := fieldClass w
  if c = 0x0#4 then decodeClass0 w
  else if c = 0x1#4 then .ok (.jp (fieldNNN w))
  else if c = 0x2#4 then .ok (.call (fieldNNN w))
  else if c = 0x3#4 then .ok (.se (fieldX w) (fieldNN w))
  else if c = 0x4#4 then .ok (.sne (fieldX w) (fieldNN w))
  else if c = 0x5#4 then
    if fieldN w = 0x0#4 then .ok (.ser (fieldX w) (fieldY w)) else .error .unknownClass5
  else if c = 0x6#4 then .ok (.ldi (fieldX w) (fieldNN w))
  else if c = 0x7#4 then .ok (.addi (fieldX w) (fieldNN w))
  else if c = 0x8#4 then decodeClass8 w
  else if c = 0x9#4 then
    if fieldN w = 0x0#4 then .ok (.sner (fieldX w) (fieldY w)) else .error .unknownClass9
  else if c = 0xA#4 then .ok (.ldx (fieldNNN w))
  else if c = 0xB#4 then .ok (.jp0 (fieldNNN w))
  else if c = 0xC#4 then .ok (.rnd (fieldX w) (fieldNN w))
  else if c = 0xD#4 then .ok (.drw (fieldX w) (fieldY w) (fieldN w))
  else if c = 0xE#4 then decodeClassE w
  else decodeClassF w

/-- The two bytes of an opcode as one word, the byte at the lower address the high one (20_memory.md R51). -/
def wordOfBytes (hi lo : Byte) : Word := hi ++ lo

/-- The high byte of an opcode, the one at the lower address: `class || X` (R73). -/
def highByte (w : Word) : Byte := w.extractLsb' 8 8

/-- The low byte of an opcode, at the next address: `NN` (R73). -/
def lowByte (w : Word) : Byte := w.extractLsb' 0 8

/-- Decode the instruction at the head of a byte sequence; every instruction is two bytes long (R72). -/
def decodeBytes : List Byte → Except DecodeReject (Instr × List Byte)
  | hi :: lo :: rest =>
    match decode (wordOfBytes hi lo) with
    | .ok i => .ok (i, rest)
    | .error r => .error r
  | _ => .error .truncated

/-! ### The encoder -/

/-- The opcode word of an instruction: the four digits of its pattern, most significant first (00_scope.md R8, R76). -/
def encode : Instr → Word
  | .cls => 0x00E0#16
  | .ret => 0x00EE#16
  | .jp nnn => 0x1#4 ++ nnn
  | .call nnn => 0x2#4 ++ nnn
  | .se x nn => 0x3#4 ++ x ++ nn
  | .sne x nn => 0x4#4 ++ x ++ nn
  | .ser x y => 0x5#4 ++ x ++ y ++ 0x0#4
  | .ldi x nn => 0x6#4 ++ x ++ nn
  | .addi x nn => 0x7#4 ++ x ++ nn
  | .mov x y => 0x8#4 ++ x ++ y ++ 0x0#4
  | .or x y => 0x8#4 ++ x ++ y ++ 0x1#4
  | .and x y => 0x8#4 ++ x ++ y ++ 0x2#4
  | .xor x y => 0x8#4 ++ x ++ y ++ 0x3#4
  | .add x y => 0x8#4 ++ x ++ y ++ 0x4#4
  | .sub x y => 0x8#4 ++ x ++ y ++ 0x5#4
  | .shr x y => 0x8#4 ++ x ++ y ++ 0x6#4
  | .subn x y => 0x8#4 ++ x ++ y ++ 0x7#4
  | .shl x y => 0x8#4 ++ x ++ y ++ 0xE#4
  | .sner x y => 0x9#4 ++ x ++ y ++ 0x0#4
  | .ldx nnn => 0xA#4 ++ nnn
  | .jp0 nnn => 0xB#4 ++ nnn
  | .rnd x nn => 0xC#4 ++ x ++ nn
  | .drw x y n => 0xD#4 ++ x ++ y ++ n
  | .skp x => 0xE#4 ++ x ++ 0x9E#8
  | .sknp x => 0xE#4 ++ x ++ 0xA1#8
  | .gdt x => 0xF#4 ++ x ++ 0x07#8
  | .wkey x => 0xF#4 ++ x ++ 0x0A#8
  | .sdt x => 0xF#4 ++ x ++ 0x15#8
  | .sst x => 0xF#4 ++ x ++ 0x18#8
  | .addx x => 0xF#4 ++ x ++ 0x1E#8
  | .font x => 0xF#4 ++ x ++ 0x29#8
  | .bcd x => 0xF#4 ++ x ++ 0x33#8
  | .stm x => 0xF#4 ++ x ++ 0x55#8
  | .ldm x => 0xF#4 ++ x ++ 0x65#8

/-- The two bytes of an instruction in memory order, high byte first (R72). -/
def encodeBytes (i : Instr) : List Byte := [highByte (encode i), lowByte (encode i)]

/-- The instruction's word is an opcode of the map. It holds of every instruction, since every field's type is the
field's width (log entry 27). -/
def Instr.wellFormed (i : Instr) : Bool := Opcode.wellFormed (encode i)

/-- The instruction this decoder reads from a word of spec/opcode_table.json, bits numbered as the table numbers them:
one 16-bit word, laid out in memory high byte first. Bits at and above `nbits` are 0. -/
def decodeTableWord (nbits w : Nat) : Option Instr :=
  let op : Word := BitVec.ofNat 16 (w % 2 ^ nbits)
  match decodeBytes [highByte op, lowByte op] with
  | .ok (i, _) => some i
  | .error _ => none

end Sys2Proof
end

