-- ==== Sys2Proof/Machine/Params.lean ====
section
/-! DEFINITION. The parameters the source leaves to the implementer (spec 00_scope.md R5, decisions D1 to D27): each
with the alternatives whose effect the spec gives (for `LOAD_OVERFLOW = TRUNCATE` all but the result, log entry 33), and
the value this hardware takes. Every operation that
depends on one takes a `Params`; the machine runs with `Params.hardware` (log entry 24). -/

namespace Sys2Proof.Machine

/-- `OOB_MODE`: what an address at or above 4096 does (20_memory.md R52, D1). -/
inductive OobMode where
  /-- The address is reduced mod 4096. -/
  | wrap
  /-- `MemoryFault` is raised (60_exceptions.md R203). -/
  | fault
  deriving DecidableEq, Repr

/-- `FAULT_PC`: what `PC` holds after a fatal fault (D2). -/
inductive FaultPc where
  | opcodeAddr
  | opcodeAddrPlus2
  deriving DecidableEq, Repr

/-- `VF_WRITE_ORDER`: which of the two writes of 8XY4 to 8XYE comes last, and so remains when `X = F` (R133, D3). -/
inductive VfWriteOrder where
  | flagThenResult
  | resultThenFlag
  deriving DecidableEq, Repr

/-- `LOAD_OVERFLOW`: what `LOAD` does with a program longer than 3584 bytes (R234, D9). -/
inductive LoadOverflow where
  | reject
  | truncate
  deriving DecidableEq, Repr

/-- `DIRTY_RULE`: when 00E0 and DXYN set `DIRTY` (R165, D10). -/
inductive DirtyRule where
  | always
  | onChange
  deriving DecidableEq, Repr

/-- `SPRITE_BIT_ORDER`: which bit of a sprite byte is the leftmost pixel (R160, D15). -/
inductive SpriteBitOrder where
  | bit7Leftmost
  | bit0Leftmost
  deriving DecidableEq, Repr

/-- `SHIFT_SOURCE`: which register 8XY6 and 8XYE shift into `VX` (D17). -/
inductive ShiftSource where
  | vx
  | vy
  deriving DecidableEq, Repr

/-- `SUB_FLAG`: the flag of 8XY5 and 8XY7 at equal operands (R127, R129, D27). -/
inductive SubFlag where
  /-- Strict comparison: 0 at equality. -/
  | strict
  /-- "No borrow": 1 at equality. -/
  | noBorrow
  deriving DecidableEq, Repr

/-- One value for each parameter. -/
structure Params where
  oobMode : OobMode
  faultPc : FaultPc
  vfWriteOrder : VfWriteOrder
  loadOverflow : LoadOverflow
  dirtyRule : DirtyRule
  tickInWait : Bool
  spriteBitOrder : SpriteBitOrder
  shiftSource : ShiftSource
  subFlag : SubFlag
  deriving DecidableEq, Repr

/-- The values this hardware takes (R5, column "this hardware"). -/
def Params.hardware : Params where
  oobMode := .wrap
  faultPc := .opcodeAddr
  vfWriteOrder := .flagThenResult
  loadOverflow := .reject
  dirtyRule := .always
  tickInWait := true
  spriteBitOrder := .bit7Leftmost
  shiftSource := .vx
  subFlag := .strict

/-- `FONT_DATA`: the 80 bytes of the font, glyph `d` at `5 * d` (10_state.md R31). PRESUMED: the spec takes them from
general knowledge, not from its source (D14, log entry 6). -/
def fontData : List Byte :=
  [0xF0, 0x90, 0x90, 0x90, 0xF0] ++ [0x20, 0x60, 0x20, 0x20, 0x70] ++
  [0xF0, 0x10, 0xF0, 0x80, 0xF0] ++ [0xF0, 0x10, 0xF0, 0x10, 0xF0] ++
  [0x90, 0x90, 0xF0, 0x10, 0x10] ++ [0xF0, 0x80, 0xF0, 0x10, 0xF0] ++
  [0xF0, 0x80, 0xF0, 0x90, 0xF0] ++ [0xF0, 0x10, 0x20, 0x40, 0x40] ++
  [0xF0, 0x90, 0xF0, 0x90, 0xF0] ++ [0xF0, 0x90, 0xF0, 0x10, 0xF0] ++
  [0xF0, 0x90, 0xF0, 0x90, 0x90] ++ [0xE0, 0x90, 0xE0, 0x90, 0xE0] ++
  [0xF0, 0x80, 0x80, 0x80, 0xF0] ++ [0xE0, 0x90, 0x90, 0x90, 0xE0] ++
  [0xF0, 0x80, 0xF0, 0x80, 0xF0] ++ [0xF0, 0x80, 0xF0, 0x80, 0x80]

end Sys2Proof.Machine
end

