-- ==== Sys2Proof/Machine/State.lean ====
section
/-! DEFINITION. The state of the machine as plain data (spec 10_state.md), the operations the host schedules, the
reasons a step can stop, and the state after reset. -/

namespace Sys2Proof.Machine

/-- `MEM` (R30), as the list of the bytes that differ from what reset leaves there, addresses strictly rising
(log entry 8). -/
abbrev Memory := List Host.Cell

/-- `FB` (R34, R160): 32 rows, row 0 the top one, of 64 one-bit pixels, column 0 the leftmost and the most
significant bit of its row, the packing of R166 (log entries 4 and 5). -/
abbrev FrameBuffer := Vector (BitVec 64) 32

/-- `fault_cause` (60_exceptions.md R200). -/
inductive FaultCause where
  /-- 2NNN with 16 live stack entries (R201). -/
  | stackOverflow
  /-- 00EE with an empty stack (R202). -/
  | stackUnderflow
  /-- An address at or above 4096, under `OOB_MODE = FAULT` only, so never on this hardware (R203). -/
  | memoryFault
  deriving DecidableEq, Repr

/-- The fault record (R38): the cause, the value `PC` had when the faulting cycle began, and the opcode fetched, or 0
when the fetch itself faulted. -/
structure FaultRecord where
  cause : FaultCause
  addr : Word
  opcode : Word
  deriving DecidableEq, Repr

/-- `MODE` (R37). -/
inductive Mode where
  | running
  | awaitingKey (target : Nibble)
  | faulted
  deriving DecidableEq, Repr

/-- The seven operations of the interface (00_scope.md section 5, decision D13). `CYCLE` is the core's, the others
are the host's. The random byte of `CYCLE` is `Config.rnd` (log entry 2). -/
inductive Op where
  | reset
  | load (bytes : List Byte)
  | setKeys (k : Vector Bool 16)
  | cycle
  | resolve
  | tick
  | dirtyAck
  deriving DecidableEq, Repr

/-- The machine. The last two fields are the model's own. -/
structure State where
  /-- `V[0]` to `V[15]` (R20); `V[15]` is `VF`, the flag (R23). -/
  v : Vector Byte 16
  /-- `I` (R27). -/
  i : Word
  /-- `PC` (R24). -/
  pc : Word
  /-- The live entries of the call stack, newest first; `SP` is its length (R28, log entry 3). -/
  stack : List Word
  /-- `DT` (R32). -/
  dt : Byte
  /-- `ST` (R33). -/
  st : Byte
  /-- `MEM` (R30). -/
  mem : Memory
  /-- `FB` (R34). -/
  fb : FrameBuffer
  /-- `DIRTY` (R35). -/
  dirty : Bool
  /-- `KEYS`, true when the key is down (R36). -/
  keys : Vector Bool 16
  /-- `MODE` (R37). -/
  mode : Mode
  /-- The fault record, `none` when no fault is recorded (R38). -/
  faultRecord : Option FaultRecord
  /-- MODEL'S OWN: which random byte the next CXNN takes (log entry 2). -/
  draws : Nat
  /-- MODEL'S OWN: the operations the host has still to issue, first one first (log entry 1). -/
  schedule : List Op
  deriving DecidableEq, Repr

/-- Reasons for a stop of the model. There is none: the machine's fatal faults are states of the machine
(60_exceptions.md R208), every other operation completes (R205), and memory answers every address (20_memory.md R52,
R56). -/
inductive Fault where
  deriving DecidableEq, Repr

/-- Reasons for which the model gives an instruction no meaning. -/
inductive Refusal where
  /-- Raised by an arm of `exec` whose instruction has no meaning yet; safe. No arm raises it: all 34 instructions
  have their meaning. -/
  | notModelled (mnemonic : String)
  deriving DecidableEq, Repr

/-- What an instruction or an operation answers. -/
abbrev Result := Host.Outcome State Fault Refusal

/-- The state after reset (70_reset_and_hazards.md R230). `V`, `PC`, the font and `MODE` are the source's; the other
values are decision D8 (log entry 7); `KEYS` is its value at power-on (R232). -/
def State.reset : State where
  v := Vector.replicate 16 0
  i := 0
  pc := 0x0200#16
  stack := []
  dt := 0
  st := 0
  mem := []
  fb := Vector.replicate 32 0
  dirty := false
  keys := Vector.replicate 16 false
  mode := .running
  faultRecord := none
  draws := 0
  schedule := []

end Sys2Proof.Machine
end

