-- ==== Sys2Proof/Machine/Ops.lean ====
section
/-! DEFINITION. The named operations over memory, registers, stack, program counter and display that every instruction
is written with, and fault entry (spec 10_state.md, 20_memory.md, 60_exceptions.md R208). -/

namespace Sys2Proof.Machine

/-! ### Memory (R30, R56) -/

/-- What an address that memory does not list reads as: the reset contents, the font in [0x000, 0x050) and 0 elsewhere
(R30, R31, log entries 6, 7 and 8). -/
def Memory.resetByte (a : Nat) : Byte := fontData.getD a 0

/-- `MEM[a]`. -/
def Memory.read : Memory → Nat → Byte
  | [], a => Memory.resetByte a
  | (b, v) :: m, a => if a = b then v else Memory.read m a

/-- List a byte at its place among the rising addresses, replacing the byte listed for that address. -/
def Memory.insert : Memory → Nat → Byte → Memory
  | [], a, v => [(a, v)]
  | (b, w) :: m, a, v =>
    if a < b then (a, v) :: (b, w) :: m
    else if a = b then (a, v) :: m
    else (b, w) :: Memory.insert m a v

/-- List no byte for an address. -/
def Memory.erase (m : Memory) (a : Nat) : Memory := m.filter fun c => c.1 != a

/-- `MEM[a] <- v`, keeping the canonical form: a byte equal to what reset leaves there is not listed. -/
def Memory.write (m : Memory) (a : Nat) (v : Byte) : Memory :=
  if v = Memory.resetByte a then Memory.erase m a else Memory.insert m a v

/-- `MEM[a + k] <- bytes[k]` for each `k`, in ascending order, with no address reduction (`LOAD`, R234). -/
def Memory.writeRun : Memory → Nat → List Byte → Memory
  | m, _, [] => m
  | m, a, b :: bs => Memory.writeRun (Memory.write m a b) (a + 1) bs

/-- The canonical form: addresses strictly rising and inside memory, no entry equal to the reset contents. -/
def Memory.wf (m : Memory) : Bool :=
  decide (m.Pairwise fun c d => c.1 < d.1) &&
    m.all fun c => decide (c.1 < Config.memSize) && (c.2 != Memory.resetByte c.1)

/-! ### General registers (R20) -/

/-- The index of `VF` (R22). -/
abbrev vf : Nibble := 0xF#4

/-- `V[x]`. -/
def State.readV (s : State) (x : Nibble) : Byte := s.v[x.toNat]'x.isLt

/-- `V[x] <- b`; no register is hard-wired (R20). -/
def State.writeV (s : State) (x : Nibble) (b : Byte) : State := { s with v := s.v.set x.toNat b x.isLt }

/-! ### Program counter (R24, R26, R103) -/

/-- `npc`, the address of the opcode plus 2, mod 65536 (00_scope.md R9); `s.pc` is the opcode's address. -/
def State.npc (s : State) : Word := s.pc + 2

/-- The advance of `PC` by which the dispatcher moves past the opcode (30_encoding.md R70). -/
def State.advance (s : State) : State := { s with pc := s.npc }

/-- `pc <- target`: no parity or range check (R26). -/
def State.jump (s : State) (target : Word) : State := { s with pc := target }

/-- The skip template (R103): `PC` moves by 4 when the condition holds, by 2 when it does not. -/
def State.skipIf (s : State) (cond : Bool) : State := { s with pc := if cond then s.npc + 2 else s.npc }

/-! ### Call stack (R28, R29) -/

/-- `SP`: how many entries are live (R28). -/
def State.sp (s : State) : Nat := s.stack.length

/-- `STACK[k]`, entries numbered from the oldest; no value at `SP` and above (R28). -/
def State.stackEntry (s : State) (k : Nat) : Option Word := s.stack.reverse[k]?

/-- `push(v)`, `none` where it raises `StackOverflow` (R29). -/
def push (v : Word) (stack : List Word) : Option (List Word) :=
  if stack.length < Config.stackDepth then some (v :: stack) else none

/-- `pop()`: the newest entry and what is left, `none` where it raises `StackUnderflow` (R29). -/
def pop : List Word → Option (Word × List Word)
  | [] => none
  | v :: rest => some (v, rest)

/-! ### Taking a fatal fault -/

/-- `fault_cause` as a number (60_exceptions.md R200). -/
def FaultCause.code : FaultCause → Nat
  | .stackOverflow => 1
  | .stackUnderflow => 2
  | .memoryFault => 3

/-- `raise <Fault>` (R208), from the state the cycle began in: no write of the cycle remains, `PC` keeps the opcode's
address (its successor under the other `FAULT_PC`), the record holds the cause, that address and the opcode, and the
core is halted. -/
def State.raise (p : Params) (cause : FaultCause) (opcode : Word) (s : State) : State :=
  { s with
    pc := match p.faultPc with
      | .opcodeAddr => s.pc
      | .opcodeAddrPlus2 => s.npc
    mode := .faulted
    faultRecord := some ⟨cause, s.pc, opcode⟩ }

/-! ### Keypad (R36) -/

/-- `KEYS[k]`. -/
def State.key (s : State) (k : Nibble) : Bool := s.keys[k.toNat]'k.isLt

/-! ### Display (43_display.md) -/

/-- `FB[y][x]`: column `x`, row `y` (R160). -/
def FrameBuffer.pixel (fb : FrameBuffer) (x : Fin 64) (y : Fin 32) : Bool := fb[y].getMsbD x

/-- `FB[y][x] <- FB[y][x] ^ 1`. -/
def FrameBuffer.flip (fb : FrameBuffer) (at' : Fin 64 × Fin 32) : FrameBuffer :=
  fb.set at'.2 (fb[at'.2] ^^^ BitVec.twoPow 64 (63 - at'.1.val))

/-- All pixels off. -/
def FrameBuffer.clear : FrameBuffer := Vector.replicate 32 0

/-- `DIRTY` after 00E0 or DXYN leaves the buffer as `fb` (R165): always set on this hardware. -/
def State.dirtyAfter (p : Params) (s : State) (fb : FrameBuffer) : Bool :=
  match p.dirtyRule with
  | .always => true
  | .onChange => s.dirty || (fb != s.fb)

end Sys2Proof.Machine
end

