-- ==== Sys2Proof/Machine/Operands.lean ====
section
/-! DEFINITION. The operand forms: the effective address and the runs of bytes at `I` (spec 20_memory.md R52, R54;
42_index_and_memory.md), the opcode at `PC` (R51), the shift operand, the key index, the BCD digits and the pixels of a
sprite. -/

namespace Sys2Proof.Machine

/-! ### Index plus implied offset -/

/-- `EA(a)` for a natural number `a` (R52); `none` where it raises `MemoryFault`, never on this hardware. -/
def effAddr (p : Params) (a : Nat) : Option Nat :=
  match p.oobMode with
  | .wrap => some (a % Config.memSize)
  | .fault => if a < Config.memSize then some a else none

/-- `MEM[EA(base + k)]` for `k` in `0 .. count-1`; `none` if an address faults (R54, R55). -/
def readSpan (p : Params) (m : Memory) : Nat → Nat → Option (List Byte)
  | _, 0 => some []
  | base, count + 1 =>
    match effAddr p base, readSpan p m (base + 1) count with
    | some a, some rest => some (Memory.read m a :: rest)
    | _, _ => none

/-- `MEM[EA(base + k)] <- bytes[k]` for each `k`; `none`, and so nothing written, if an address faults (R54, R55). -/
def writeSpan (p : Params) : Memory → Nat → List Byte → Option Memory
  | m, _, [] => some m
  | m, base, b :: bs =>
    match effAddr p base with
    | some a => writeSpan p (Memory.write m a b) (base + 1) bs
    | none => none

/-- The opcode at `PC`, high byte at the lower address (R51): `none` if a byte's address faults (R207). -/
def fetchWord (p : Params) (s : State) : Option Word :=
  match effAddr p s.pc.toNat, effAddr p (s.pc.toNat + 1) with
  | some hi, some lo => some (wordOfBytes (Memory.read s.mem hi) (Memory.read s.mem lo))
  | _, _ => none

/-- An instruction that stores `bytes` at `I` upwards and moves on, or faults with nothing written. -/
def State.storeAtI (p : Params) (opcode : Word) (bytes : List Byte) (s : State) : State :=
  match writeSpan p s.mem s.i.toNat bytes with
  | some m => { s.advance with mem := m }
  | none => s.raise p .memoryFault opcode

/-! ### Runs of registers (R144, R145) -/

/-- `V[0] .. V[x]`, `x + 1` bytes. -/
def State.regsUpTo (s : State) (x : Nibble) : List Byte := s.v.toList.take (x.toNat + 1)

/-- `V[k] <- bytes[k]` for each `k` there is a byte for; the other registers keep their values. -/
def State.fillRegs (s : State) (bytes : List Byte) : State :=
  { s with v := Vector.ofFn fun k : Fin 16 => bytes.getD k.val s.v[k] }

/-! ### Register operands of particular instructions -/

/-- What 8XY6 and 8XYE shift: `VX` on this hardware, `Y` being ignored (R128, R130, D17). -/
def State.shiftOperand (p : Params) (s : State) (x y : Nibble) : Byte :=
  match p.shiftSource with
  | .vx => s.readV x
  | .vy => s.readV y

/-- The key EX9E and EXA1 look at: the low four bits of `VX` (R189, D6, log entry 14). -/
def State.keyIndex (s : State) (x : Nibble) : Nibble := (s.readV x).extractLsb' 0 4

/-- The decimal digits of a byte, hundreds first, one a byte (R143). -/
def bcdDigits (b : Byte) : List Byte :=
  [BitVec.ofNat 8 (b.toNat / 100), BitVec.ofNat 8 (b.toNat / 10 % 10), BitVec.ofNat 8 (b.toNat % 10)]

/-! ### Sprites (43_display.md R160, R162) -/

/-- The pixel of a sprite byte in sprite column `c`, 0 the leftmost: bit `7 - c` (R160, D15, log entry 5). -/
def spriteBit (p : Params) (b : Byte) (c : Nat) : Bool :=
  match p.spriteBitOrder with
  | .bit7Leftmost => b.getLsbD (7 - c)
  | .bit0Leftmost => b.getLsbD c

/-- The screen pixels under the lit pixels of one sprite row, `y` being the row's unreduced row number: each coordinate
is reduced after the offset is added, so a sprite wraps (R162, R163 (a)). -/
def litInRow (p : Params) (x0 y : Nat) (b : Byte) : List (Fin 64 × Fin 32) :=
  ((List.range 8).filter fun c => spriteBit p b c).map fun c => (Fin.ofNat 64 (x0 + c), Fin.ofNat 32 y)

/-- The screen pixels under the lit pixels of a sprite whose rows are `rows`, at `(VX mod 64, VY mod 32)`: the `(px, py)`
the loops of R162 visit with `b[7 - c] = 1`, in their order. No pixel is listed twice (R163 (d)). -/
def litPixels (p : Params) (x0 : Nat) : Nat → List Byte → List (Fin 64 × Fin 32)
  | _, [] => []
  | y, b :: rows => litInRow p x0 y b ++ litPixels p x0 (y + 1) rows

end Sys2Proof.Machine
end

