-- ==== Sys2Proof/Machine/Flags.lean ====
section
/-! DEFINITION. The flag computations (spec 10_state.md R23): the value each instruction writes to `VF`, always 0 or 1,
and the order of the two writes where `X = F` (41_load_and_alu.md R133). -/

namespace Sys2Proof.Machine

/-- A flag as the byte `VF` holds. -/
def flagByte (b : Bool) : Byte := if b then 1 else 0

/-- 8XY4: 1 if the sum of the two bytes, as natural numbers, is above 255 (R126). -/
def carryFlag (a b : Byte) : Byte := flagByte (decide (a.toNat + b.toNat > 255))

/-- 8XY5 and 8XY7: 1 if the minuend is above the subtrahend; at equality 0 on this hardware (R127, R129, D27,
log entry 19). -/
def subtractFlag (p : Params) (minuend subtrahend : Byte) : Byte :=
  match p.subFlag with
  | .strict => flagByte (decide (minuend.toNat > subtrahend.toNat))
  | .noBorrow => flagByte (decide (minuend.toNat ≥ subtrahend.toNat))

/-- 8XY6: bit 0 of the value before the shift (R128). -/
def shiftRightFlag (b : Byte) : Byte := flagByte (b.getLsbD 0)

/-- 8XYE: bit 7 of the value before the shift (R130). -/
def shiftLeftFlag (b : Byte) : Byte := flagByte (b.getLsbD 7)

/-- DXYN: 1 if a pixel that was on is under a lit pixel of the sprite (R164). -/
def collisionFlag (fb : FrameBuffer) (lit : List (Fin 64 × Fin 32)) : Byte :=
  flagByte (lit.any fun at' => fb.pixel at'.1 at'.2)

/-- The two writes of 8XY4 to 8XYE: the flag to `VF`, then the result to `VX`, so that with `X = F` the result remains
(R133, D3, log entry 12). Both values were computed from the state at entry (00_scope.md R10). -/
def State.writeFlagged (p : Params) (s : State) (x : Nibble) (flag result : Byte) : State :=
  match p.vfWriteOrder with
  | .flagThenResult => (s.writeV vf flag).writeV x result
  | .resultThenFlag => (s.writeV x result).writeV vf flag

end Sys2Proof.Machine
end

