-- ==== Sys2Proof/Machine/Alu.lean ====
section
/-! DEFINITION. Register load, arithmetic and logic, and the random byte (spec 41_load_and_alu.md). All byte arithmetic
is mod 256 (R132). -/

namespace Sys2Proof.Machine

/-- LDI, 6XNN (R120). -/
def execLdi (x : Nibble) (nn : Byte) (s : State) : Result := .next (s.advance.writeV x nn)

/-- ADDI, 7XNN (R121): no flag. -/
def execAddi (x : Nibble) (nn : Byte) (s : State) : Result := .next (s.advance.writeV x (s.readV x + nn))

/-- MOV, 8XY0 (R122). -/
def execMov (x y : Nibble) (s : State) : Result := .next (s.advance.writeV x (s.readV y))

/-- OR, 8XY1 (R123): no flag. -/
def execOr (x y : Nibble) (s : State) : Result := .next (s.advance.writeV x (s.readV x ||| s.readV y))

/-- AND, 8XY2 (R124): no flag. -/
def execAnd (x y : Nibble) (s : State) : Result := .next (s.advance.writeV x (s.readV x &&& s.readV y))

/-- XOR, 8XY3 (R125): no flag. -/
def execXor (x y : Nibble) (s : State) : Result := .next (s.advance.writeV x (s.readV x ^^^ s.readV y))

/-- ADD, 8XY4 (R126). -/
def execAdd (x y : Nibble) (s : State) : Result :=
  .next (s.advance.writeFlagged Params.hardware x (carryFlag (s.readV x) (s.readV y)) (s.readV x + s.readV y))

/-- SUB, 8XY5 (R127). -/
def execSub (x y : Nibble) (s : State) : Result :=
  .next (s.advance.writeFlagged Params.hardware x (subtractFlag Params.hardware (s.readV x) (s.readV y))
    (s.readV x - s.readV y))

/-- SHR, 8XY6 (R128). -/
def execShr (x y : Nibble) (s : State) : Result :=
  let b := s.shiftOperand Params.hardware x y
  .next (s.advance.writeFlagged Params.hardware x (shiftRightFlag b) (b >>> 1))

/-- SUBN, 8XY7 (R129). -/
def execSubn (x y : Nibble) (s : State) : Result :=
  .next (s.advance.writeFlagged Params.hardware x (subtractFlag Params.hardware (s.readV y) (s.readV x))
    (s.readV y - s.readV x))

/-- SHL, 8XYE (R130). -/
def execShl (x y : Nibble) (s : State) : Result :=
  let b := s.shiftOperand Params.hardware x y
  .next (s.advance.writeFlagged Params.hardware x (shiftLeftFlag b) (b <<< 1))

/-- RND, CXNN (R131): the byte is the next free value (log entry 2). -/
def execRnd (x : Nibble) (nn : Byte) (s : State) : Result :=
  .next { s.advance.writeV x (Config.rnd s.draws &&& nn) with draws := s.draws + 1 }

end Sys2Proof.Machine
end

