-- ==== Sys2Proof/Machine/ControlFlow.lean ====
section
/-! DEFINITION. Return, jumps, call and the skips on register values (spec 40_control_flow.md). A meaning starts from
the state in which the cycle began: `s.pc` is the opcode's address (log entry 23). -/

namespace Sys2Proof.Machine

/-- RET, 00EE (R100). -/
def execRet (s : State) : Result :=
  match pop s.stack with
  | some (target, rest) => .next { s.jump target with stack := rest }
  | none => .next (s.raise Params.hardware .stackUnderflow (encode .ret))

/-- JP, 1NNN (R101). -/
def execJp (nnn : Addr) (s : State) : Result := .next (s.jump (nnn.setWidth 16))

/-- CALL, 2NNN (R102): the value pushed is the address after the call. -/
def execCall (nnn : Addr) (s : State) : Result :=
  match push s.npc s.stack with
  | some stack => .next { s.jump (nnn.setWidth 16) with stack := stack }
  | none => .next (s.raise Params.hardware .stackOverflow (encode (.call nnn)))

/-- JP0, BNNN (R104): the sum is not reduced to 12 bits. -/
def execJp0 (nnn : Addr) (s : State) : Result := .next (s.jump (nnn.setWidth 16 + (s.readV 0x0#4).setWidth 16))

/-- SE, 3XNN (R105). -/
def execSe (x : Nibble) (nn : Byte) (s : State) : Result := .next (s.skipIf (s.readV x == nn))

/-- SNE, 4XNN (R106). -/
def execSne (x : Nibble) (nn : Byte) (s : State) : Result := .next (s.skipIf (s.readV x != nn))

/-- SER, 5XY0 (R107). -/
def execSer (x y : Nibble) (s : State) : Result := .next (s.skipIf (s.readV x == s.readV y))

/-- SNER, 9XY0 (R108). -/
def execSner (x y : Nibble) (s : State) : Result := .next (s.skipIf (s.readV x != s.readV y))

end Sys2Proof.Machine
end

