-- ==== Sys2Proof/Machine/Display.lean ====
section
/-! DEFINITION. The display instructions and the renderer's read port (spec 43_display.md). -/

namespace Sys2Proof.Machine

/-- 00E0 (R161). -/
def clsWith (p : Params) (s : State) : State :=
  { s.advance with fb := FrameBuffer.clear, dirty := s.dirtyAfter p FrameBuffer.clear }

/-- CLS, 00E0 (R161). -/
def execCls (s : State) : Result := .next (clsWith Params.hardware s)

/-- DXYN (R162): flip every pixel under a lit pixel of the sprite, `VF` telling whether one of them was on. -/
def drwWith (p : Params) (x y n : Nibble) (s : State) : State :=
  match readSpan p s.mem s.i.toNat n.toNat with
  | some rows =>
    let lit := litPixels p ((s.readV x).toNat % 64) ((s.readV y).toNat % 32) rows
    let fb := lit.foldl FrameBuffer.flip s.fb
    { s.advance.writeV vf (collisionFlag s.fb lit) with fb := fb, dirty := s.dirtyAfter p fb }
  | none => s.raise p .memoryFault (encode (.drw x y n))

/-- DRW, DXYN (R162). -/
def execDrw (x y n : Nibble) (s : State) : Result := .next (drwWith Params.hardware x y n s)

/-! ### The read port (R166): reading changes nothing -/

/-- The pixel of index `k = 64 * y + x` in the raster order; indices past 2047 start over. -/
def FrameBuffer.rasterPixel (fb : FrameBuffer) (k : Nat) : Bool := fb.pixel (Fin.ofNat 64 k) (Fin.ofNat 32 (k / 64))

/-- Byte `k` of the packed frame: pixels `8 * k` to `8 * k + 7`, the lower index in the higher bit. -/
def FrameBuffer.rasterByte (fb : FrameBuffer) (k : Nat) : Byte :=
  (fb[Fin.ofNat 32 (k / 8)]).extractLsb' (56 - 8 * (k % 8)) 8

/-- The packed frame, 256 bytes. -/
def FrameBuffer.frame (fb : FrameBuffer) : List Byte := (List.range 256).map fb.rasterByte

end Sys2Proof.Machine
end

