-- ==== Sys2Proof/Machine/IndexMemory.lean ====
section
/-! DEFINITION. The index register and the stores and loads through it (spec 42_index_and_memory.md). None of the
stores and loads changes `I` (R146). The meanings that can fault under `OOB_MODE = FAULT` are written for any
parameters; `exec` runs them with this hardware's. -/

namespace Sys2Proof.Machine

/-- LDX, ANNN (R140). -/
def execLdx (nnn : Addr) (s : State) : Result := .next { s.advance with i := nnn.setWidth 16 }

/-- ADDX, FX1E (R141): mod 65536, no flag. -/
def execAddx (x : Nibble) (s : State) : Result := .next { s.advance with i := s.i + (s.readV x).setWidth 16 }

/-- FONT, FX29 (R142): the whole byte times 5 (log entry 20). -/
def execFont (x : Nibble) (s : State) : Result := .next { s.advance with i := BitVec.ofNat 16 ((s.readV x).toNat * 5) }

/-- FX33 (R143). -/
def bcdWith (p : Params) (x : Nibble) (s : State) : State :=
  s.storeAtI p (encode (.bcd x)) (bcdDigits (s.readV x))

/-- BCD, FX33 (R143). -/
def execBcd (x : Nibble) (s : State) : Result := .next (bcdWith Params.hardware x s)

/-- FX55 (R144). -/
def stmWith (p : Params) (x : Nibble) (s : State) : State :=
  s.storeAtI p (encode (.stm x)) (s.regsUpTo x)

/-- STM, FX55 (R144). -/
def execStm (x : Nibble) (s : State) : Result := .next (stmWith Params.hardware x s)

/-- FX65 (R145). -/
def ldmWith (p : Params) (x : Nibble) (s : State) : State :=
  match readSpan p s.mem s.i.toNat (x.toNat + 1) with
  | some bytes => s.advance.fillRegs bytes
  | none => s.raise p .memoryFault (encode (.ldm x))

/-- LDM, FX65 (R145). -/
def execLdm (x : Nibble) (s : State) : Result := .next (ldmWith Params.hardware x s)

end Sys2Proof.Machine
end

