-- ==== Sys2Proof/Machine/KeypadTimers.lean ====
section
/-! DEFINITION. The keypad skips, the key wait and the timer registers (spec 44_keypad_and_timers.md). -/

namespace Sys2Proof.Machine

/-- SKP, EX9E (R181). -/
def execSkp (x : Nibble) (s : State) : Result := .next (s.skipIf (s.key (s.keyIndex x)))

/-- SKNP, EXA1 (R182). -/
def execSknp (x : Nibble) (s : State) : Result := .next (s.skipIf (!s.key (s.keyIndex x)))

/-- WKEY, FX0A (R183): only suspends dispatch; `RESOLVE` writes the register later. -/
def execWkey (x : Nibble) (s : State) : Result := .next { s.advance with mode := .awaitingKey x }

/-- GDT, FX07 (R186). -/
def execGdt (x : Nibble) (s : State) : Result := .next (s.advance.writeV x s.dt)

/-- SDT, FX15 (R187). -/
def execSdt (x : Nibble) (s : State) : Result := .next { s.advance with dt := s.readV x }

/-- SST, FX18 (R188). -/
def execSst (x : Nibble) (s : State) : Result := .next { s.advance with st := s.readV x }

end Sys2Proof.Machine
end

