-- ==== Sys2Proof/Machine/Cycle.lean ====
section
/-! DEFINITION. The core's one operation, `CYCLE` (spec 30_encoding.md R70): fetch, decode, execute one opcode; and what
it answers the host. -/

namespace Sys2Proof.Machine

/-- An unknown opcode is a no-op: `PC` moves past it and nothing else changes (R77, 60_exceptions.md R204). -/
def State.skipUnknown (s : State) : State := s.advance

/-- `CYCLE` (R70) for any parameters and any meaning of the instructions: held while a key is awaited (R183), halted in
`FAULTED` (R208), otherwise one opcode. A fetch whose address faults, under `OOB_MODE = FAULT` only, records opcode 0
(R38, R203). -/
def cycleWith (p : Params) (meaning : Instr → State → Result) (s : State) : Result :=
  match s.mode with
  | .faulted => .next s
  | .awaitingKey _ => .next s
  | .running =>
    match fetchWord p s with
    | none => .next (s.raise p .memoryFault 0)
    | some op =>
      match decode op with
      | .ok i => meaning i s
      | .error _ => .next s.skipUnknown

/-- `CYCLE` on this hardware (R70). -/
def cycle (s : State) : Result := cycleWith Params.hardware exec s

/-- The result of a `CYCLE` (R70). -/
inductive CycleResult where
  | executed | held | halted | faulted
  deriving DecidableEq, Repr

/-- The result the `CYCLE` issued in state `s` returns; an output, not stored (R40, log entry 22). -/
def cycleResult (s : State) : CycleResult :=
  match s.mode with
  | .faulted => .halted
  | .awaitingKey _ => .held
  | .running =>
    match cycle s with
    | .next t => if t.mode = .faulted then .faulted else .executed
    | .fault _ => .faulted
    | .refused _ => .faulted

/-- The event `UnknownOpcode(address, opcode)` (R77). -/
structure UnknownOpcode where
  addr : Word
  opcode : Word
  deriving DecidableEq, Repr

/-- The event the `CYCLE` issued in state `s` emits; an output, not stored (R77, R204, log entry 22). -/
def cycleEvent (s : State) : Option UnknownOpcode :=
  match s.mode with
  | .faulted => none
  | .awaitingKey _ => none
  | .running =>
    match fetchWord Params.hardware s with
    | none => none
    | some op =>
      match decode op with
      | .ok _ => none
      | .error _ => some ⟨s.pc, op⟩

end Sys2Proof.Machine
end

