-- ==== Sys2Proof/Machine/HostOps.lean ====
section
/-! DEFINITION. The host's operations, each one atomic transition (spec 00_scope.md R6, R11): `RESET`, `LOAD`,
`SET_KEYS`, `RESOLVE`, `TICK`, `DIRTY_ACK`; what each returns; the outputs readable between operations; and the one
function that performs any of the seven operations; runs of them. -/

namespace Sys2Proof.Machine

/-! ### RESET (70_reset_and_hazards.md R230, R232) -/

/-- The creation state again. `KEYS` is the host's and stays (R232); so do the model's own fields, which are no state of
the machine: what the host has still to issue, and which random bytes have been taken (log entries 1 and 2). -/
def State.doReset (s : State) : State :=
  { State.reset with keys := s.keys, draws := s.draws, schedule := s.schedule }

/-! ### LOAD (R234, R236) -/

/-- The result of `LOAD`. -/
inductive LoadResult where
  | loaded | rejected
  deriving DecidableEq, Repr

/-- `LOAD` is carried out: not in `FAULTED`, and not for a program that passes 0xFFF, unless such a program is to be
truncated (R234, D9, D19). -/
def loadAccepted (p : Params) (bytes : List Byte) (s : State) : Bool :=
  s.mode != .faulted && (Program.fits bytes || p.loadOverflow == .truncate)

/-- `LOAD(bytes)`: memory only, in any mode but `FAULTED` (R234, R236). -/
def State.doLoad (p : Params) (bytes : List Byte) (s : State) : State :=
  if loadAccepted p bytes s then
    { s with mem := Memory.writeRun s.mem Config.progBase (bytes.take Config.maxProgram) }
  else s

/-- What `LOAD(bytes)` returns. DESIGN CHOICE (log entry 33): for a program cut short under `LOAD_OVERFLOW = TRUNCATE`,
never on this hardware, the spec gives no result, and the model returns `loaded`. -/
def loadResult (p : Params) (bytes : List Byte) (s : State) : LoadResult :=
  if loadAccepted p bytes s then .loaded else .rejected

/-! ### SET_KEYS (44_keypad_and_timers.md R180) -/

/-- `KEYS[j] <- k[j]`, in every mode (R180, R208). -/
def State.doSetKeys (k : Vector Bool 16) (s : State) : State := { s with keys := k }

/-! ### RESOLVE (R184) -/

/-- The key pressed with the lowest index (R184). -/
def firstKey (keys : Vector Bool 16) : Option Nat := keys.toList.findIdx? fun down => down

/-- The result of `RESOLVE`. -/
inductive ResolveResult where
  | resolved (k : Nat) | stillWaiting | notWaiting
  deriving DecidableEq, Repr

/-- `RESOLVE`: while a key is awaited and one is down, its index goes to the target register and the core runs again;
otherwise nothing changes (R184). -/
def State.doResolve (s : State) : State :=
  match s.mode with
  | .awaitingKey t =>
    match firstKey s.keys with
    | some k => { s.writeV t (BitVec.ofNat 8 k) with mode := .running }
    | none => s
  | .running => s
  | .faulted => s

/-- What `RESOLVE` returns. -/
def resolveResult (s : State) : ResolveResult :=
  match s.mode with
  | .awaitingKey _ =>
    match firstKey s.keys with
    | some k => .resolved k
    | none => .stillWaiting
  | .running => .notWaiting
  | .faulted => .notWaiting

/-! ### TICK (60_exceptions.md R211 to R214) -/

/-- A timer's next count: one less, never below 0 (R211). -/
def countDown (b : Byte) : Byte := if b = 0 then 0 else b - 1

/-- `TICK` counts: not in `FAULTED` (R208), and while a key is awaited as `TICK_IN_WAIT` says (R212, D11). -/
def tickCounts (p : Params) (s : State) : Bool :=
  match s.mode with
  | .running => true
  | .awaitingKey _ => p.tickInWait
  | .faulted => false

/-- `TICK`: each timer, on its own, one down (R211). -/
def State.doTick (p : Params) (s : State) : State :=
  if tickCounts p s then { s with dt := countDown s.dt, st := countDown s.st } else s

/-- `sound_edge`, what `TICK` returns: this call takes `ST` from 1 to 0 (R211, R213). -/
def soundEdge (p : Params) (s : State) : Bool := tickCounts p s && s.st == 1

/-- The output `tone_on` (R214). -/
def State.toneOn (s : State) : Bool := s.st != 0

/-! ### DIRTY_ACK (43_display.md R167) -/

/-- `DIRTY <- 0`; no effect in `FAULTED` (R167, R208). -/
def State.doDirtyAck (s : State) : State := if s.mode = .faulted then s else { s with dirty := false }

/-! ### Any operation -/

/-- Perform one operation (00_scope.md section 5). -/
def operate (op : Op) (s : State) : Result :=
  match op with
  | .reset => .next s.doReset
  | .load bytes => .next (s.doLoad Params.hardware bytes)
  | .setKeys k => .next (s.doSetKeys k)
  | .cycle => cycle s
  | .resolve => .next s.doResolve
  | .tick => .next (s.doTick Params.hardware)
  | .dirtyAck => .next s.doDirtyAck

/-- What an operation returns to the host. -/
inductive Output where
  | nothing
  | cycled (r : CycleResult) (event : Option UnknownOpcode)
  | loaded (r : LoadResult)
  | resolved (r : ResolveResult)
  | ticked (soundEdge : Bool)
  deriving DecidableEq, Repr

/-- What an operation issued in state `s` returns: an output, not stored (10_state.md R40, log entry 22). -/
def output (op : Op) (s : State) : Output :=
  match op with
  | .reset => .nothing
  | .load bytes => .loaded (loadResult Params.hardware bytes s)
  | .setKeys _ => .nothing
  | .cycle => .cycled (cycleResult s) (cycleEvent s)
  | .resolve => .resolved (resolveResult s)
  | .tick => .ticked (soundEdge Params.hardware s)
  | .dirtyAck => .nothing

/-! ### Runs -/

/-- A run (00_scope.md R6): what stands after the first `n` of the operations `ops`, an infinite sequence of the host's
choosing, performed one after another from `s`. A finite run is a prefix of one (log entry 1). -/
def run (ops : Nat → Op) (s : State) : Nat → Result
  | 0 => .next s
  | n + 1 =>
    match run ops s n with
    | .next t => operate (ops n) t
    | .fault r => .fault r
    | .refused r => .refused r

/-! ### The next operation -/

/-- The operation the machine performs next: the first of the host's schedule, or `CYCLE` when the schedule holds none
(log entry 1). -/
def State.nextOp (s : State) : Op := s.schedule.headD .cycle

/-- The schedule without the operation performed next. -/
def State.unschedule (s : State) : State := { s with schedule := s.schedule.tail }

/-- Place an opcode where the next fetch reads it, and let the next operation be a fetch: its two bytes at `EA(PC)` and
`EA(PC+1)`, high byte first (20_memory.md R51), the core running and nothing scheduled before the `CYCLE`. -/
def State.placeOpcode (s : State) (op : Word) : State :=
  { s with
    mem := Memory.write (Memory.write s.mem (s.pc.toNat % Config.memSize) (highByte op))
      ((s.pc.toNat + 1) % Config.memSize) (lowByte op)
    mode := .running
    schedule := [] }

end Sys2Proof.Machine
end

