-- ==== Sys2Proof/Machine/Step.lean ====
section
/-! DEFINITION. One step of the machine: the next operation of the run (spec 00_scope.md R6, R11). -/

namespace Sys2Proof.Machine

/-- One step: take the next operation off the host's schedule and perform it; with an empty schedule, `CYCLE`. -/
def step (s : State) : Host.Outcome State Fault Refusal := operate s.nextOp s.unschedule

/-- `s` with the opcode whose bits are `w` (as spec/opcode_table.json numbers them, bits at and above `nbits` zero)
where the next step fetches. -/
def State.withFetchWord (s : State) (nbits w : Nat) : State := s.placeOpcode (BitVec.ofNat 16 (w % 2 ^ nbits))

end Sys2Proof.Machine
end

