-- ==== Sys2Proof/Safety.lean ====
section
/-! DEFINITION. What counts as a well-formed state and as a safe run (spec 10_state.md R39, 60_exceptions.md R208,
70_reset_and_hazards.md R242), in the terms the statements use. -/

namespace Sys2Proof

/-- How many bytes an instruction stores, at the address `I` upwards (20_memory.md R54): FX33 three, FX55 `X + 1`, every
other instruction none. -/
def Instr.storedBytes : Instr → Nat
  | .bcd _ => 3
  | .stm x => x.toNat + 1
  | _ => 0

/-- The general registers an instruction may write (10_state.md R21, column "writes"). -/
def Instr.mayWriteV : Instr → Nibble → Bool
  | .ldi x _, r => r == x
  | .addi x _, r => r == x
  | .mov x _, r => r == x
  | .or x _, r => r == x
  | .and x _, r => r == x
  | .xor x _, r => r == x
  | .add x _, r => r == x || r == 0xF#4
  | .sub x _, r => r == x || r == 0xF#4
  | .shr x _, r => r == x || r == 0xF#4
  | .subn x _, r => r == x || r == 0xF#4
  | .shl x _, r => r == x || r == 0xF#4
  | .rnd x _, r => r == x
  | .drw _ _ _, r => r == 0xF#4
  | .gdt x, r => r == x
  | .ldm x, r => decide (r.toNat ≤ x.toNat)
  | _, _ => false

end Sys2Proof

namespace Sys2Proof.Machine

/-- The invariants of the state that its types do not already say (R39): memory in its canonical form, at most 16 live
stack entries, and a fault recorded exactly in `FAULTED` (R37, R38). -/
structure State.Inv (s : State) : Prop where
  mem : Memory.wf s.mem = true
  stack : s.sp ≤ Config.stackDepth
  record : s.mode = .faulted ↔ s.faultRecord.isSome

/-- The core is halted by a fatal fault; never a successful end of a run (R208). -/
def State.halted (s : State) : Prop := s.mode = .faulted

/-- The duty on programs of R242 (a), which the hardware does not check (10_state.md R26). -/
def State.pcValid (s : State) : Prop := s.pc.toNat % 2 = 0 ∧ s.pc.toNat ≤ 4094

/-- The address of byte `k` of an instruction's operand at `I` (42_index_and_memory.md section 3), on this hardware. -/
def State.operandAddr (s : State) (k : Nat) : Nat := (s.i.toNat + k) % Config.memSize

/-- The next state of an instruction that writes general registers only: `PC` past the opcode, everything that is not a
general register as before. -/
def State.OnlyRegistersTo (s t : State) : Prop := t = { s with v := t.v, pc := s.pc + 2 }

/-- The next state of 8XY4 to 8XYE with the given result and flag, as numbers (10_state.md R23, 41_load_and_alu.md
R133): `VX` holds the result, `VF` the flag unless `X = F`, every other register is as before, and nothing but registers
and `PC` changes. -/
structure State.FlaggedTo (s t : State) (x : Nibble) (result flag : Nat) : Prop where
  result : (t.readV x).toNat = result
  flag : x ≠ vf → (t.readV vf).toNat = flag
  others : ∀ r, r ≠ x → r ≠ vf → t.readV r = s.readV r
  only : s.OnlyRegistersTo t

/-- A lit pixel of a sprite of `n` rows at `I`, drawn at `(VX, VY)`, lies over screen pixel `(px, py)`: some row `r` and
column `c` of the sprite have bit `7 - c` set and land there (43_display.md R162, R164). -/
def State.spriteCovers (s : State) (x y n : Nibble) (px : Fin 64) (py : Fin 32) : Prop :=
  ∃ r < n.toNat, ∃ c < 8, (Memory.read s.mem (s.operandAddr r)).getLsbD (7 - c) = true ∧
    px.val = ((s.readV x).toNat % 64 + c) % 64 ∧ py.val = ((s.readV y).toNat % 32 + r) % 32

/-- The font as 10_state.md R31 prints it: the five bytes of each digit's glyph, top row first, in one number (log
entry 6). -/
def fontRows : List (BitVec 40) :=
  [0xF0909090F0#40, 0x2060202070#40, 0xF010F080F0#40, 0xF010F010F0#40,
   0x9090F01010#40, 0xF080F010F0#40, 0xF080F090F0#40, 0xF010204040#40,
   0xF090F090F0#40, 0xF090F010F0#40, 0xF090F09090#40, 0xE090E090E0#40,
   0xF0808080F0#40, 0xE0909090E0#40, 0xF080F080F0#40, 0xF080F08080#40]

/-- The five bytes of memory from an address on, the lowest address first. -/
def Memory.fiveBytes (m : Memory) (a : Nat) : BitVec 40 :=
  Memory.read m a ++ Memory.read m (a + 1) ++ Memory.read m (a + 2) ++ Memory.read m (a + 3) ++ Memory.read m (a + 4)

/-- The opcode the next `CYCLE` fetches: the two bytes at `PC`, high byte first (20_memory.md R51). -/
def State.opcodeAtPc (s : State) : Word :=
  wordOfBytes (Memory.read s.mem (s.pc.toNat % Config.memSize)) (Memory.read s.mem ((s.pc.toNat + 1) % Config.memSize))

/-- What stands after `n` steps. -/
def stepTimes : Nat → State → Result
  | 0, s => .next s
  | n + 1, s =>
    match step s with
    | .next t => stepTimes n t
    | .fault r => .fault r
    | .refused r => .refused r

/-- The next step is a `CYCLE` that executes instruction `i`. -/
def State.runs (s : State) (i : Instr) : Prop :=
  s.nextOp = .cycle ∧ s.mode = .running ∧ decode s.opcodeAtPc = .ok i

end Sys2Proof.Machine
end

