-- ==== Sys2Proof/Certificates/Slice0/Obligations.lean ====
section
/-! DEFINITION. The statements for the provers, one definition each. `exec i s` is an instruction performed from the state
in which its cycle began, so `s.pc` is the opcode's address; `step s` is the next operation of the run. A docstring names
the rule or the section of spec/ a statement formalises, and says where it rests on a choice of the spec or of the
model. -/

open Sys2Proof Sys2Proof.Machine

/-! ### Encoding -/

/-- Decoding an encoded instruction gives it back, as a word and as the two bytes at the head of any byte sequence
(30_encoding.md sections 2 and 3). Every instruction is well formed (log entry 27). -/
def Obligations.DecodingAnEncodedInstructionGivesItBack : Prop :=
  ∀ (i : Instr) (rest : List Byte), i.wellFormed = true ∧ decode (encode i) = .ok i ∧
    decodeBytes (encodeBytes i ++ rest) = .ok (i, rest)

/-- A word that decodes is the encoding of what it decodes to: no bit of an opcode is dropped, the ignored `Y` of 8XY6
and 8XYE among them (30_encoding.md sections 2 and 3). -/
def Obligations.EncodingADecodedWordGivesItBack : Prop :=
  ∀ (w : Word) (i : Instr), decode w = .ok i → encode i = w

/-- R71: `decode(op) = k` exactly when `op & mask_k = match_k`; the 34 rows are pairwise disjoint; every word that
satisfies none is unknown. -/
def Obligations.DecodeIsTheOpcodeMap : Prop :=
  ∀ w : Word,
    (∀ r ∈ opcodeTable, (w &&& r.mask = r.pattern ↔ ∃ i, decode w = .ok i ∧ i.mnemonic = r.mnemonic)) ∧
    (∀ r ∈ opcodeTable, ∀ r' ∈ opcodeTable, w &&& r.mask = r.pattern → w &&& r'.mask = r'.pattern → r = r') ∧
    ((∀ r ∈ opcodeTable, w &&& r.mask ≠ r.pattern) ↔ ∃ e, decode w = .error e)

/-- The unknown opcodes, by class, exactly as the table of the rule lists them (30_encoding.md section 4). It rests on
decision D5, the exact match (log entry 13). -/
def Obligations.UnknownOpcodesByClass : Prop :=
  ∀ w : Word, (∃ e, decode w = .error e) ↔
    (fieldClass w = 0x0#4 ∧ fieldNNN w ≠ 0x0E0#12 ∧ fieldNNN w ≠ 0x0EE#12) ∨
    (fieldClass w = 0x5#4 ∧ fieldN w ≠ 0x0#4) ∨
    (fieldClass w = 0x8#4 ∧ fieldN w ∈ [0x8#4, 0x9#4, 0xA#4, 0xB#4, 0xC#4, 0xD#4, 0xF#4]) ∨
    (fieldClass w = 0x9#4 ∧ fieldN w ≠ 0x0#4) ∨
    (fieldClass w = 0xE#4 ∧ fieldNN w ∉ [0x9E#8, 0xA1#8]) ∨
    (fieldClass w = 0xF#4 ∧
      fieldNN w ∉ [0x07#8, 0x0A#8, 0x15#8, 0x18#8, 0x1E#8, 0x29#8, 0x33#8, 0x55#8, 0x65#8])

/-- Words written out from the spec's patterns decode to the instructions they stand for, one of each family
(30_encoding.md section 3); and 0x5121, whose low nibble is not that of 5XY0, is unknown (section 4), which is the spec's
decision D5, the exact match (log entry 13). -/
def Obligations.WordsOfEveryFamilyDecode : Prop :=
  decode 0x00EE#16 = .ok .ret ∧ decode 0x2ABC#16 = .ok (.call 0xABC#12) ∧ decode 0x3A10#16 = .ok (.se 0xA#4 0x10#8) ∧
  decode 0x6A7F#16 = .ok (.ldi 0xA#4 0x7F#8) ∧ decode 0x8126#16 = .ok (.shr 0x1#4 0x2#4) ∧
  decode 0xC10F#16 = .ok (.rnd 0x1#4 0x0F#8) ∧ decode 0xF355#16 = .ok (.stm 0x3#4) ∧
  decode 0xD125#16 = .ok (.drw 0x1#4 0x2#4 0x5#4) ∧ decode 0xE1A1#16 = .ok (.sknp 0x1#4) ∧
  decode 0xF50A#16 = .ok (.wkey 0x5#4) ∧ decode 0x5121#16 = .error .unknownClass5

/-! ### The step -/

/-- A step runs the decoded instruction: with the core running and `CYCLE` next, the opcode at `PC` decoding to `i`, the
step is `exec i` on the state less the scheduled `CYCLE`, and on the state itself when nothing is scheduled; the `CYCLE`
answers Faulted if the instruction took a fatal fault and Executed if not, with no event (30_encoding.md section 1,
60_exceptions.md section 4; decision D2, log entries 10 and 22; the schedule is the model's, log entry 1). -/
def Obligations.AStepRunsTheDecodedInstruction : Prop :=
  ∀ (s : State) (i : Instr), s.runs i →
    step s = exec i s.unschedule ∧ (s.schedule = [] → step s = exec i s) ∧
    ∀ t, step s = .next t →
      output .cycle s = .cycled (if t.mode = .faulted then .faulted else .executed) none

/-- R51: the opcode is the byte at `EA(PC)`, high, and the byte at `EA(PC + 1)`, low, whatever the parameters; the first
is class and `X`, the second `Y` and `N`; and FX65 reads them in this same order. -/
def Obligations.FetchIsBigEndian : Prop :=
  (∀ (p : Params) (s : State) (a b : Nat), effAddr p s.pc.toNat = some a → effAddr p (s.pc.toNat + 1) = some b →
    ∃ op, fetchWord p s = some op ∧ op.toNat = (Memory.read s.mem a).toNat * 256 + (Memory.read s.mem b).toNat ∧
      Memory.read s.mem a = fieldClass op ++ fieldX op ∧ Memory.read s.mem b = fieldY op ++ fieldN op) ∧
  ∀ s : State, s.i = s.pc → ∃ t, exec (.ldm 0x1#4) s = .next t ∧
    fetchWord Params.hardware s = some (t.readV 0x0#4 ++ t.readV 0x1#4)

/-- An unknown opcode is executed as a no-op: `PC` advances by 2, nothing else changes, no fault, and the event carries
the opcode's address and value; no other `CYCLE` emits the event (30_encoding.md sections 1 and 4, decision D4, log
entries 13 and 22). -/
def Obligations.AnUnknownOpcodeIsANoOpWithAnEvent : Prop :=
  (∀ s : State, s.nextOp = .cycle → s.mode = .running → (∃ e, decode s.opcodeAtPc = .error e) →
    step s = .next { s.unschedule with pc := s.pc + 2 } ∧
    output .cycle s = .cycled .executed (some ⟨s.pc, s.opcodeAtPc⟩)) ∧
  ∀ (s : State) (e : UnknownOpcode), cycleEvent s = some e →
    s.mode = .running ∧ e = ⟨s.pc, s.opcodeAtPc⟩ ∧ ∃ r, decode s.opcodeAtPc = .error r

/-- A `CYCLE` issued while a key is awaited is held and one issued in `FAULTED` is halted: nothing changes (30_encoding.md
section 1, decisions D2, D18, D19, log entries 10 and 28). -/
def Obligations.ACycleOutsideRunningChangesNothing : Prop :=
  ∀ s : State,
    (∀ x, s.mode = .awaitingKey x → operate .cycle s = .next s ∧ output .cycle s = .cycled .held none) ∧
    (s.mode = .faulted → operate .cycle s = .next s ∧ output .cycle s = .cycled .halted none)

/-- The host's schedule is performed in order, one operation a step; with nothing scheduled the step is a `CYCLE`. This is
the model's choice of how operations interleave (log entry 1). And for every infinite sequence of operations the host may
choose, its first `n` operations are what `n` steps perform with these `n` scheduled, so every finite part of every run is
a run of the step (00_scope.md section 4). -/
def Obligations.TheScheduleIsPerformedInOrder : Prop :=
  ∀ s : State, (s.schedule = [] → step s = operate .cycle s) ∧
    (∀ op rest, s.schedule = op :: rest → step s = operate op { s with schedule := rest }) ∧
    ∀ (ops : Nat → Op) (n : Nat), s.schedule = [] →
      stepTimes n { s with schedule := (List.range n).map ops } = run ops s n

/-! ### Control transfer -/

/-- R101: JP sets `PC` to NNN and changes nothing else; a jump to itself changes no state. -/
def Obligations.JpSetsThePc : Prop :=
  ∀ (nnn : Addr) (s : State), decode (0x1#4 ++ nnn) = .ok (.jp nnn) ∧
    ∃ t, exec (.jp nnn) s = .next t ∧ t.pc.toNat = nnn.toNat ∧ t = { s with pc := t.pc } ∧
      (nnn.toNat = s.pc.toNat → t = s)

/-- R102: CALL pushes the address after the call and sets `PC` to NNN; with 16 entries live nothing is written, `PC` stays
and the core is faulted. The bound is "16 or more", which is the same in every state a run reaches. -/
def Obligations.CallPushesTheAddressAfterIt : Prop :=
  ∀ (nnn : Addr) (s : State), decode (0x2#4 ++ nnn) = .ok (.call nnn) ∧
    ∃ t, exec (.call nnn) s = .next t ∧
      if s.sp < 16 then
        t.pc.toNat = nnn.toNat ∧ t.sp = s.sp + 1 ∧ t.stackEntry s.sp = some (s.pc + 2) ∧
        (∀ k < s.sp, t.stackEntry k = s.stackEntry k) ∧ t = { s with pc := t.pc, stack := t.stack }
      else t.mode = .faulted ∧ t = { s with mode := t.mode, faultRecord := t.faultRecord }

/-- R100: RET pops the newest entry into `PC`, unchanged; with no entry live nothing is written, `PC` stays and the core is
faulted. -/
def Obligations.RetPopsThePc : Prop :=
  ∀ s : State, decode 0x00EE#16 = .ok .ret ∧
    ∃ t, exec .ret s = .next t ∧
      if 0 < s.sp then
        s.stackEntry (s.sp - 1) = some t.pc ∧ t.sp = s.sp - 1 ∧ (∀ k < t.sp, t.stackEntry k = s.stackEntry k) ∧
        t = { s with pc := t.pc, stack := t.stack }
      else t.mode = .faulted ∧ t = { s with mode := t.mode, faultRecord := t.faultRecord }

/-- The fault records of a call with the stack full and of a return with it empty, which hold the cause, the opcode's
address and the opcode (10_state.md section 11, 60_exceptions.md sections 1 and 4; decision D2, log entries 10 and
11). -/
def Obligations.StackFaultsAreRecorded : Prop :=
  ∀ (nnn : Addr) (s : State),
    (16 ≤ s.sp → exec (.call nnn) s = .next { s with
      mode := .faulted, faultRecord := some ⟨.stackOverflow, s.pc, 0x2#4 ++ nnn⟩ }) ∧
    (s.sp = 0 → exec .ret s = .next { s with
      mode := .faulted, faultRecord := some ⟨.stackUnderflow, s.pc, 0x00EE#16⟩ })

/-- A return after a call comes back to the instruction after the call with the stack as before (the source's property S5,
95_test_vectors.md part 1). -/
def Obligations.ReturnUndoesCall : Prop :=
  ∀ (nnn : Addr) (s t : State), s.sp < 16 → exec (.call nnn) s = .next t →
    exec .ret t = .next { s with pc := s.pc + 2 }

/-- R105 and R106: SE and SNE move `PC` by 4 when the condition on `VX` and NN holds, by 2 when it does not, mod 65536, and
change nothing else. -/
def Obligations.SkipsOnAnImmediate : Prop :=
  ∀ (x : Nibble) (nn : Byte) (s : State),
    decode (0x3#4 ++ x ++ nn) = .ok (.se x nn) ∧ decode (0x4#4 ++ x ++ nn) = .ok (.sne x nn) ∧
    (∃ t, exec (.se x nn) s = .next t ∧ t = { s with pc := t.pc } ∧
      t.pc.toNat = (s.pc.toNat + if (s.readV x).toNat = nn.toNat then 4 else 2) % 65536) ∧
    (∃ t, exec (.sne x nn) s = .next t ∧ t = { s with pc := t.pc } ∧
      t.pc.toNat = (s.pc.toNat + if (s.readV x).toNat = nn.toNat then 2 else 4) % 65536)

/-- SER and SNER move `PC` by 4 when the condition on `VX` and `VY` holds, by 2 when it does not, and change nothing else;
with `X = Y` SER always skips and SNER never; a nonzero low nibble is no instruction (40_control_flow.md section 2;
decision D5, log entry 13). -/
def Obligations.SkipsOnTwoRegisters : Prop :=
  ∀ (x y n : Nibble) (s : State),
    decode (0x5#4 ++ x ++ y ++ n) = (if n = 0 then .ok (.ser x y) else .error .unknownClass5) ∧
    decode (0x9#4 ++ x ++ y ++ n) = (if n = 0 then .ok (.sner x y) else .error .unknownClass9) ∧
    (∃ t, exec (.ser x y) s = .next t ∧ t = { s with pc := t.pc } ∧
      t.pc.toNat = (s.pc.toNat + if (s.readV x).toNat = (s.readV y).toNat then 4 else 2) % 65536 ∧
      (x = y → t.pc = s.pc + 4)) ∧
    (∃ t, exec (.sner x y) s = .next t ∧ t = { s with pc := t.pc } ∧
      t.pc.toNat = (s.pc.toNat + if (s.readV x).toNat = (s.readV y).toNat then 2 else 4) % 65536 ∧
      (x = y → t.pc = s.pc + 2))

/-- JP0 sets `PC` to NNN + V0, not reduced to 12 bits, and changes nothing else (40_control_flow.md section 1; decision
D17, log entry 18). -/
def Obligations.Jp0AddsV0 : Prop :=
  ∀ (nnn : Addr) (s : State), decode (0xB#4 ++ nnn) = .ok (.jp0 nnn) ∧
    ∃ t, exec (.jp0 nnn) s = .next t ∧ t.pc.toNat = nnn.toNat + (s.readV 0x0#4).toNat ∧ t.pc.toNat ≤ 0x10FE ∧
      t = { s with pc := t.pc }

/-! ### Load, arithmetic, random -/

/-- R120, R121 and R122: LDI, ADDI and MOV write NN, `(VX + NN) mod 256` and `VY` to `VX`, and change nothing else but `PC`;
no flag. -/
def Obligations.LoadsAndImmediateAdd : Prop :=
  ∀ (x y : Nibble) (nn : Byte) (s : State),
    decode (0x6#4 ++ x ++ nn) = .ok (.ldi x nn) ∧ decode (0x7#4 ++ x ++ nn) = .ok (.addi x nn) ∧
    decode (0x8#4 ++ x ++ y ++ 0x0#4) = .ok (.mov x y) ∧
    (∃ t, exec (.ldi x nn) s = .next t ∧ t.readV x = nn ∧ (∀ r, r ≠ x → t.readV r = s.readV r) ∧
      s.OnlyRegistersTo t) ∧
    (∃ t, exec (.addi x nn) s = .next t ∧ (t.readV x).toNat = ((s.readV x).toNat + nn.toNat) % 256 ∧
      (∀ r, r ≠ x → t.readV r = s.readV r) ∧ s.OnlyRegistersTo t) ∧
    (∃ t, exec (.mov x y) s = .next t ∧ t.readV x = s.readV y ∧ (∀ r, r ≠ x → t.readV r = s.readV r) ∧
      s.OnlyRegistersTo t)

/-- R123, R124 and R125: OR, AND and XOR combine `VX` and `VY` bit by bit into `VX` and change nothing else but `PC`: `VF` is
not written. With `X = Y` OR and AND leave `VX` as it is and XOR sets it to 0. -/
def Obligations.BitwiseInstructions : Prop :=
  ∀ (x y : Nibble) (s : State),
    decode (0x8#4 ++ x ++ y ++ 0x1#4) = .ok (.or x y) ∧ decode (0x8#4 ++ x ++ y ++ 0x2#4) = .ok (.and x y) ∧
    decode (0x8#4 ++ x ++ y ++ 0x3#4) = .ok (.xor x y) ∧
    (∃ t, exec (.or x y) s = .next t ∧
      (∀ k, (t.readV x).getLsbD k = ((s.readV x).getLsbD k || (s.readV y).getLsbD k)) ∧
      (∀ r, r ≠ x → t.readV r = s.readV r) ∧ s.OnlyRegistersTo t ∧ (x = y → t.readV x = s.readV x)) ∧
    (∃ t, exec (.and x y) s = .next t ∧
      (∀ k, (t.readV x).getLsbD k = ((s.readV x).getLsbD k && (s.readV y).getLsbD k)) ∧
      (∀ r, r ≠ x → t.readV r = s.readV r) ∧ s.OnlyRegistersTo t ∧ (x = y → t.readV x = s.readV x)) ∧
    (∃ t, exec (.xor x y) s = .next t ∧
      (∀ k, (t.readV x).getLsbD k = ((s.readV x).getLsbD k ^^ (s.readV y).getLsbD k)) ∧
      (∀ r, r ≠ x → t.readV r = s.readV r) ∧ s.OnlyRegistersTo t ∧ (x = y → t.readV x = 0))

/-- ADD writes `(VX + VY) mod 256` to `VX` and the carry to `VF`, the sum remaining where `X = F`; operands are read at
entry (41_load_and_alu.md sections 3 and 5; decision D3, log entry 12). -/
def Obligations.AddReportsTheCarry : Prop :=
  ∀ (x y : Nibble) (s : State), decode (0x8#4 ++ x ++ y ++ 0x4#4) = .ok (.add x y) ∧
    ∃ t, exec (.add x y) s = .next t ∧
      s.FlaggedTo t x (((s.readV x).toNat + (s.readV y).toNat) % 256)
        (if (s.readV x).toNat + (s.readV y).toNat > 255 then 1 else 0)

/-- SUB writes `(VX - VY) mod 256` to `VX` and the strict comparison `VX > VY` to `VF`; with `X = Y` the result and the flag
are 0 (41_load_and_alu.md sections 3 and 5; decisions D3 and D27, log entries 12 and 19). -/
def Obligations.SubReportsTheStrictComparison : Prop :=
  ∀ (x y : Nibble) (s : State), decode (0x8#4 ++ x ++ y ++ 0x5#4) = .ok (.sub x y) ∧
    ∃ t, exec (.sub x y) s = .next t ∧
      s.FlaggedTo t x (((s.readV x).toNat + 256 - (s.readV y).toNat) % 256)
        (if (s.readV x).toNat > (s.readV y).toNat then 1 else 0) ∧
      (x = y → t.readV x = 0 ∧ t.readV vf = 0)

/-- SUBN writes `(VY - VX) mod 256` to `VX` and the strict comparison `VY > VX` to `VF`; with `X = Y` the result and the flag
are 0 (41_load_and_alu.md sections 3 and 5; decisions D3 and D27, log entries 12 and 19). -/
def Obligations.SubnReportsTheStrictComparison : Prop :=
  ∀ (x y : Nibble) (s : State), decode (0x8#4 ++ x ++ y ++ 0x7#4) = .ok (.subn x y) ∧
    ∃ t, exec (.subn x y) s = .next t ∧
      s.FlaggedTo t x (((s.readV y).toNat + 256 - (s.readV x).toNat) % 256)
        (if (s.readV y).toNat > (s.readV x).toNat then 1 else 0) ∧
      (x = y → t.readV x = 0 ∧ t.readV vf = 0)

/-- SHR and SHL shift `VX` in place by one bit, `VF` taking the bit shifted out, the same for every `Y` (41_load_and_alu.md
sections 3 and 5; decisions D3 and D17, log entries 12 and 18). -/
def Obligations.ShiftsReportTheBitShiftedOut : Prop :=
  ∀ (x y : Nibble) (s : State),
    decode (0x8#4 ++ x ++ y ++ 0x6#4) = .ok (.shr x y) ∧ decode (0x8#4 ++ x ++ y ++ 0xE#4) = .ok (.shl x y) ∧
    (∃ t, exec (.shr x y) s = .next t ∧ s.FlaggedTo t x ((s.readV x).toNat / 2) ((s.readV x).toNat % 2) ∧
      ∀ y', exec (.shr x y') s = .next t) ∧
    (∃ t, exec (.shl x y) s = .next t ∧ s.FlaggedTo t x ((s.readV x).toNat * 2 % 256) ((s.readV x).toNat / 128) ∧
      ∀ y', exec (.shl x y') s = .next t)

/-- RND writes the random byte masked by NN to `VX`, whatever the byte is: the bits outside NN are 0, NN = 0 gives 0 and
NN = 0xFF gives the byte itself; the next RND takes the next byte (41_load_and_alu.md section 4; decision D7, log
entry 2). -/
def Obligations.RndMasksTheRandomByte : Prop :=
  ∀ (x : Nibble) (nn : Byte) (s : State), decode (0xC#4 ++ x ++ nn) = .ok (.rnd x nn) ∧
    ∃ t, exec (.rnd x nn) s = .next t ∧ t.draws = s.draws + 1 ∧
      (∀ k, (t.readV x).getLsbD k = ((Config.rnd s.draws).getLsbD k && nn.getLsbD k)) ∧
      (nn = 0 → t.readV x = 0) ∧ (nn = 0xFF → t.readV x = Config.rnd s.draws) ∧
      (∀ r, r ≠ x → t.readV r = s.readV r) ∧ t = { s with v := t.v, pc := s.pc + 2, draws := t.draws }

/-! ### Index register and memory -/

/-- R140 and R141: LDX sets `I` to NNN, ADDX adds `VX` to it mod 65536, and neither changes anything else but `PC`: no flag
is written, whatever the sum. -/
def Obligations.IndexIsSetAndAddedTo : Prop :=
  ∀ (x : Nibble) (nnn : Addr) (s : State),
    decode (0xA#4 ++ nnn) = .ok (.ldx nnn) ∧ decode (0xF#4 ++ x ++ 0x1E#8) = .ok (.addx x) ∧
    (∃ t, exec (.ldx nnn) s = .next t ∧ t.i.toNat = nnn.toNat ∧ t = { s with i := t.i, pc := s.pc + 2 }) ∧
    (∃ t, exec (.addx x) s = .next t ∧ t.i.toNat = (s.i.toNat + (s.readV x).toNat) % 65536 ∧
      t = { s with i := t.i, pc := s.pc + 2 })

/-- FONT sets `I` to `VX * 5` with the whole byte (42_index_and_memory.md section 1; decision D21, log entry 20); and for a
digit that is the address of its glyph: the five bytes of reset memory from there on are those 10_state.md section 7
prints for the digit, which are the spec's from general knowledge (decision D14, log entry 6). -/
def Obligations.FontPointsAtTheGlyph : Prop :=
  ∀ (x : Nibble) (s : State), decode (0xF#4 ++ x ++ 0x29#8) = .ok (.font x) ∧
    ∃ t, exec (.font x) s = .next t ∧ t.i.toNat = (s.readV x).toNat * 5 ∧ t = { s with i := t.i, pc := s.pc + 2 } ∧
      ((s.readV x).toNat < 16 →
        Memory.fiveBytes State.reset.mem t.i.toNat = fontRows.getD (s.readV x).toNat 0)

/-- BCD stores the three decimal digits of `VX`, hundreds first, one a byte, at `I` (its addresses wrapping, decision D1,
log entry 9), and changes nothing else but `PC`; `I` is unchanged (decision D22, log entry 20). Under the alternative
`OOB_MODE = FAULT` (log entry 24) it raises MemoryFault if `I + 2 ≥ 4096`, with no byte written and the fault record of
decision D2 (log entries 10 and 11). (42_index_and_memory.md section 2, 60_exceptions.md section 1.) -/
def Obligations.BcdStoresTheDigits : Prop :=
  ∀ (x : Nibble) (s : State), decode (0xF#4 ++ x ++ 0x33#8) = .ok (.bcd x) ∧
    (∃ t, exec (.bcd x) s = .next t ∧
      (Memory.read t.mem (s.operandAddr 0)).toNat = (s.readV x).toNat / 100 ∧
      (Memory.read t.mem (s.operandAddr 1)).toNat = (s.readV x).toNat / 10 % 10 ∧
      (Memory.read t.mem (s.operandAddr 2)).toNat = (s.readV x).toNat % 10 ∧
      (∀ a, (∀ k < 3, a ≠ s.operandAddr k) → Memory.read t.mem a = Memory.read s.mem a) ∧
      t = { s with mem := t.mem, pc := s.pc + 2 }) ∧
    ∀ p : Params, p.oobMode = .fault → s.i.toNat + 2 ≥ 4096 →
      ∃ t, bcdWith p x s = t ∧ t.mem = s.mem ∧ t.mode = .faulted ∧
        t.faultRecord = some ⟨.memoryFault, s.pc, 0xF#4 ++ x ++ 0x33#8⟩

/-- STM stores `V0` to `VX` at `I` upwards (its addresses wrapping, decision D1, log entry 9) and changes nothing else but
`PC`; `I` is unchanged (decision D22, log entry 20). Under the alternative `OOB_MODE = FAULT` (log entry 24) it raises
MemoryFault if `I + X ≥ 4096`, with no byte written and the fault record of decision D2 (log entries 10 and 11).
(42_index_and_memory.md section 2, 60_exceptions.md section 1.) -/
def Obligations.StmStoresTheRegisters : Prop :=
  ∀ (x : Nibble) (s : State), decode (0xF#4 ++ x ++ 0x55#8) = .ok (.stm x) ∧
    (∃ t, exec (.stm x) s = .next t ∧
      (∀ r : Nibble, r.toNat ≤ x.toNat → Memory.read t.mem (s.operandAddr r.toNat) = s.readV r) ∧
      (∀ a, (∀ k < x.toNat + 1, a ≠ s.operandAddr k) → Memory.read t.mem a = Memory.read s.mem a) ∧
      t = { s with mem := t.mem, pc := s.pc + 2 }) ∧
    ∀ p : Params, p.oobMode = .fault → s.i.toNat + x.toNat ≥ 4096 →
      ∃ t, stmWith p x s = t ∧ t.mem = s.mem ∧ t.mode = .faulted ∧
        t.faultRecord = some ⟨.memoryFault, s.pc, 0xF#4 ++ x ++ 0x55#8⟩

/-- LDM loads the bytes at `I` upwards (its addresses wrapping, decision D1, log entry 9) into `V0` to `VX` and changes
nothing else but `PC`; `I` is unchanged (decision D22, log entry 20), and so is memory. Under the alternative
`OOB_MODE = FAULT` (log entry 24) it raises MemoryFault if `I + X ≥ 4096`, with no register written and the fault record
of decision D2 (log entries 10 and 11). (42_index_and_memory.md section 2, 60_exceptions.md section 1.) -/
def Obligations.LdmLoadsTheRegisters : Prop :=
  ∀ (x : Nibble) (s : State), decode (0xF#4 ++ x ++ 0x65#8) = .ok (.ldm x) ∧
    (∃ t, exec (.ldm x) s = .next t ∧
      (∀ r : Nibble, r.toNat ≤ x.toNat → t.readV r = Memory.read s.mem (s.operandAddr r.toNat)) ∧
      (∀ r : Nibble, x.toNat < r.toNat → t.readV r = s.readV r) ∧ s.OnlyRegistersTo t) ∧
    ∀ p : Params, p.oobMode = .fault → s.i.toNat + x.toNat ≥ 4096 →
      ∃ t, ldmWith p x s = t ∧ t.v = s.v ∧ t.mode = .faulted ∧
        t.faultRecord = some ⟨.memoryFault, s.pc, 0xF#4 ++ x ++ 0x65#8⟩

/-- Registers stored by STM come back by an LDM with the same `X` and `I` from any state with that memory (the source's
property S4, 95_test_vectors.md part 1). -/
def Obligations.LoadUndoesStore : Prop :=
  ∀ (x : Nibble) (s t u : State), exec (.stm x) s = .next t → u.mem = t.mem → u.i = s.i →
    ∃ w, exec (.ldm x) u = .next w ∧ ∀ r : Nibble, r.toNat ≤ x.toNat → w.readV r = s.readV r

/-- A byte stored into code is fetched as stored by the next cycle: after STM over two addresses that `PC` points at, the
next opcode is the two registers stored (20_memory.md section 4). -/
def Obligations.StoredCodeIsFetchedAtOnce : Prop :=
  ∀ (x r r' : Nibble) (s t : State), exec (.stm x) s = .next t → r.toNat + 1 = r'.toNat → r'.toNat ≤ x.toNat →
    (s.pc + 2).toNat % 4096 = s.operandAddr r.toNat → t.opcodeAtPc = s.readV r ++ s.readV r'

/-! ### Display -/

/-- CLS turns every pixel off and sets `DIRTY`, also when the buffer was already clear, and changes nothing else but `PC`
(43_display.md section 2; decision D10, log entry 16). -/
def Obligations.ClsClearsTheDisplay : Prop :=
  ∀ s : State, decode 0x00E0#16 = .ok .cls ∧
    ∃ t, exec .cls s = .next t ∧ (∀ px py, t.fb.pixel px py = false) ∧ t.dirty = true ∧
      t = { s with fb := t.fb, dirty := t.dirty, pc := s.pc + 2 }

/-- DRW flips exactly the pixels under a lit pixel of the sprite, wrapping at both edges, sets `DIRTY` always, writes 0 or
1 to `VF` and changes nothing else but `PC`; with N = 0 no pixel changes and `VF` is 0 (43_display.md section 2; bit 7
leftmost and the orientation are the spec's from general knowledge, decisions D10, D15 and D23, log entries 5, 16 and
20). -/
def Obligations.DrwFlipsThePixelsUnderTheSprite : Prop :=
  ∀ (x y n : Nibble) (s : State), decode (0xD#4 ++ x ++ y ++ n) = .ok (.drw x y n) ∧
    ∃ t, exec (.drw x y n) s = .next t ∧
      (∀ px py, s.spriteCovers x y n px py → t.fb.pixel px py = !s.fb.pixel px py) ∧
      (∀ px py, ¬s.spriteCovers x y n px py → t.fb.pixel px py = s.fb.pixel px py) ∧
      (t.readV vf = 0 ∨ t.readV vf = 1) ∧ (∀ r, r ≠ vf → t.readV r = s.readV r) ∧ t.dirty = true ∧
      (n = 0 → t.fb = s.fb ∧ t.readV vf = 0) ∧
      t = { s with v := t.v, fb := t.fb, dirty := t.dirty, pc := s.pc + 2 }

/-- `VF` is 1 after DRW exactly when some row `r` and column `c` of the sprite have bit `7 - c` set over a pixel that was on
before; otherwise it is 0 (43_display.md section 2; which pixels the bits cover is the bit order of the spec's decision
D15, from general knowledge, log entry 5). -/
def Obligations.CollisionIsAnOnPixelUnderTheSprite : Prop :=
  ∀ (x y n : Nibble) (s : State), ∃ t, exec (.drw x y n) s = .next t ∧
    ((∃ px py, s.spriteCovers x y n px py ∧ s.fb.pixel px py = true) → t.readV vf = 1) ∧
    ((∀ px py, s.spriteCovers x y n px py → s.fb.pixel px py = false) → t.readV vf = 0)

/-- Drawing the same sprite at the same place a second time restores the buffer (43_display.md section 2, the example of
DXYN). Neither coordinate register is `VF`, which the first draw overwrites. -/
def Obligations.DrawingTwiceRestoresTheDisplay : Prop :=
  ∀ (x y n : Nibble) (s t : State), x ≠ vf → y ≠ vf → exec (.drw x y n) s = .next t →
    ∃ u, exec (.drw x y n) t = .next u ∧ u.fb = s.fb

/-- The packed frame lists the pixels in raster order, eight to a byte, the lower index in the higher bit (43_display.md
section 3; a convention of the spec, decisions D13 and D15, log entry 4). -/
def Obligations.FrameIsPackedInRasterOrder : Prop :=
  ∀ fb : FrameBuffer, fb.frame.length = 256 ∧ ∀ (px : Fin 64) (py : Fin 32),
    (fb.frame.getD ((64 * py.val + px.val) / 8) 0).getLsbD (7 - px.val % 8) = fb.pixel px py

/-! ### Keypad and timers -/

/-- SKP skips when the key that the low four bits of `VX` select is down, SKNP when it is up, and neither changes anything
but `PC` (44_keypad_and_timers.md sections 2 and 5; decision D6, log entry 14). -/
def Obligations.KeySkipsReadTheSelectedKey : Prop :=
  ∀ (x : Nibble) (s : State),
    decode (0xE#4 ++ x ++ 0x9E#8) = .ok (.skp x) ∧ decode (0xE#4 ++ x ++ 0xA1#8) = .ok (.sknp x) ∧
    (∃ t, exec (.skp x) s = .next t ∧ t = { s with pc := t.pc } ∧
      t.pc = if s.keys.toList.getD ((s.readV x).toNat % 16) false then s.pc + 4 else s.pc + 2) ∧
    (∃ t, exec (.sknp x) s = .next t ∧ t = { s with pc := t.pc } ∧
      t.pc = if s.keys.toList.getD ((s.readV x).toNat % 16) false then s.pc + 2 else s.pc + 4)

/-- WKEY moves past itself and suspends dispatch with `X` as the target register; it looks at no key and writes no register
(44_keypad_and_timers.md section 3; decisions D11 and D18, log entries 17 and 28). -/
def Obligations.WkeyOnlySuspends : Prop :=
  ∀ (x : Nibble) (s : State), decode (0xF#4 ++ x ++ 0x0A#8) = .ok (.wkey x) ∧
    ∃ t, exec (.wkey x) s = .next t ∧ t.mode = .awaitingKey x ∧ t = { s with mode := t.mode, pc := s.pc + 2 }

/-- `RESOLVE` while a key is awaited: with no key down nothing changes; otherwise the lowest key down goes to the target
register, the core runs again, and nothing else changes. Outside a wait nothing changes (44_keypad_and_timers.md section
3; decisions D18 and D19, log entry 28). -/
def Obligations.ResolveTakesTheLowestKey : Prop :=
  ∀ s : State, ∃ t, operate .resolve s = .next t ∧
    (∀ x, s.mode = .awaitingKey x → (∀ k : Nibble, s.key k = false) →
      t = s ∧ output .resolve s = .resolved .stillWaiting) ∧
    (∀ x k, s.mode = .awaitingKey x → s.key k = true → (∀ j : Nibble, j.toNat < k.toNat → s.key j = false) →
      (t.readV x).toNat = k.toNat ∧ (∀ r, r ≠ x → t.readV r = s.readV r) ∧
      t = { s with v := t.v, mode := .running } ∧ output .resolve s = .resolved (.resolved k.toNat)) ∧
    ((∀ x, s.mode ≠ .awaitingKey x) → t = s ∧ output .resolve s = .resolved .notWaiting)

/-- R186 and R187: GDT copies the delay timer to `VX`, SDT copies `VX` to the delay timer, and neither changes anything else
but `PC`. -/
def Obligations.DelayTimerIsReadAndWritten : Prop :=
  ∀ (x : Nibble) (s : State),
    decode (0xF#4 ++ x ++ 0x07#8) = .ok (.gdt x) ∧ decode (0xF#4 ++ x ++ 0x15#8) = .ok (.sdt x) ∧
    (∃ t, exec (.gdt x) s = .next t ∧ t.readV x = s.dt ∧ (∀ r, r ≠ x → t.readV r = s.readV r) ∧
      s.OnlyRegistersTo t) ∧
    (∃ t, exec (.sdt x) s = .next t ∧ t.dt = s.readV x ∧ t = { s with dt := t.dt, pc := s.pc + 2 })

/-- SST copies `VX` to the sound timer and changes nothing else but `PC`; the tone is on after it exactly when `VX` is not 0
(44_keypad_and_timers.md section 4, 60_exceptions.md section 6; decision D12, log entry 30). -/
def Obligations.SoundTimerIsWritten : Prop :=
  ∀ (x : Nibble) (s : State), decode (0xF#4 ++ x ++ 0x18#8) = .ok (.sst x) ∧
    ∃ t, exec (.sst x) s = .next t ∧ t.st = s.readV x ∧ t = { s with st := t.st, pc := s.pc + 2 } ∧
      (t.toneOn = true ↔ (s.readV x).toNat ≠ 0)

/-- R211 and R213: `TICK` takes 1 from each nonzero timer, never below 0, touches nothing else, and reports the sound edge
exactly when it takes `ST` from 1 to 0; in `FAULTED` it changes nothing and reports none. -/
def Obligations.TickCountsTheTimersDown : Prop :=
  ∀ s : State, ∃ t, operate .tick s = .next t ∧
    if s.mode = .faulted then t = s ∧ output .tick s = .ticked false
    else t.dt.toNat = s.dt.toNat - 1 ∧ t.st.toNat = s.st.toNat - 1 ∧ t = { s with dt := t.dt, st := t.st } ∧
      (output .tick s = .ticked true ↔ s.st.toNat = 1 ∧ t.st.toNat = 0)

/-- The delay timer rises by nothing but SDT: after a step it is at most what it was, unless that step executed SDT
(70_reset_and_hazards.md section 4). -/
def Obligations.OnlySdtRaisesTheDelayTimer : Prop :=
  ∀ s t : State, step s = .next t → t.dt.toNat ≤ s.dt.toNat ∨ ∃ x, s.runs (.sdt x) ∧ t.dt = s.readV x

/-! ### The host's operations -/

/-- `LOAD` of at most 3584 bytes outside `FAULTED` puts byte `k` at 0x200 + `k` and changes no other byte and no other
state; a longer one, or one in `FAULTED`, is rejected and changes nothing (70_reset_and_hazards.md section 2; decisions
D9, D19 and D26, log entries 15 and 28). -/
def Obligations.LoadWritesMemoryOnly : Prop :=
  ∀ (bytes : List Byte) (s : State), ∃ t, operate (.load bytes) s = .next t ∧
    if s.mode ≠ .faulted ∧ bytes.length ≤ 3584 then
      (∀ k < bytes.length, Memory.read t.mem (0x200 + k) = bytes.getD k 0) ∧
      (∀ a, a < 0x200 ∨ 0x200 + bytes.length ≤ a → Memory.read t.mem a = Memory.read s.mem a) ∧
      t = { s with mem := t.mem } ∧ output (.load bytes) s = .loaded .loaded
    else t = s ∧ output (.load bytes) s = .loaded .rejected

/-- `RESET` in any mode leaves the creation state: registers, `I`, timers, stack and display zero or empty, `PC` 0x200, the
font and zeros in memory, the core running with no fault recorded, and `KEYS` as the host last set them
(70_reset_and_hazards.md section 1; decisions D2, D8 and D14, log entries 6, 7 and 10). -/
def Obligations.ResetLeavesTheCreationState : Prop :=
  ∀ s : State, ∃ t, operate .reset s = .next t ∧ (∀ r, t.readV r = 0) ∧ t.pc = 0x0200#16 ∧ t.i = 0 ∧ t.sp = 0 ∧
    t.dt = 0 ∧ t.st = 0 ∧ t.toneOn = false ∧ (∀ px py, t.fb.pixel px py = false) ∧ t.dirty = false ∧
    t.mode = .running ∧ t.faultRecord = none ∧ t.keys = s.keys ∧
    (∀ a < 80, Memory.read t.mem a = fontData.getD a 0) ∧ (∀ a, 80 ≤ a → Memory.read t.mem a = 0)

/-- `SET_KEYS` writes the sixteen keys in every mode, and `DIRTY_ACK` clears `DIRTY` except in `FAULTED`; neither changes
anything else (44_keypad_and_timers.md section 1, 43_display.md section 3, 60_exceptions.md section 4; decisions D2 and
D13, log entries 28 and 29). -/
def Obligations.KeysAndDirtyAreTheHosts : Prop :=
  ∀ (k : Vector Bool 16) (s : State),
    operate (.setKeys k) s = .next { s with keys := k } ∧
    ∃ t, operate .dirtyAck s = .next t ∧
      if s.mode = .faulted then t = s else t.dirty = false ∧ t = { s with dirty := t.dirty }

/-- In `FAULTED` every operation but `RESET` and `SET_KEYS` leaves the whole state unchanged, and the operations answer
Halted, no sound edge, NotWaiting and Rejected (60_exceptions.md section 4; decisions D2 and D19, log entries 10 and
28). -/
def Obligations.AFaultedCoreIsFrozen : Prop :=
  ∀ (s : State) (op : Op), s.mode = .faulted →
    (op ≠ .reset → (∀ k, op ≠ .setKeys k) → operate op s = .next s) ∧
    output .cycle s = .cycled .halted none ∧ output .tick s = .ticked false ∧
    output .resolve s = .resolved .notWaiting ∧ ∀ bytes, output (.load bytes) s = .loaded .rejected

/-! ### The alternative OOB_MODE -/

/-- Under the alternative `OOB_MODE = FAULT` (decision D1, log entries 9 and 24) a running core's `CYCLE`, whatever its
instructions mean, raises MemoryFault if one of the two bytes of its opcode is at 4096 or above, with opcode 0 in the
record, and otherwise performs the instruction it fetches; and DRW raises MemoryFault exactly if it has at least one row
and `I + N - 1 ≥ 4096`. Nothing but `MODE` and the fault record is then written (decision D2, log entries 10 and 11).
(60_exceptions.md sections 1 and 3, 10_state.md section 11, 43_display.md section 2.) -/
def Obligations.FaultModeRaisesMemoryFault : Prop :=
  ∀ (p : Params) (s : State), p.oobMode = .fault → p.faultPc = .opcodeAddr →
    (∀ meaning : Instr → State → Result, s.mode = .running →
      (s.pc.toNat + 1 ≥ 4096 → cycleWith p meaning s =
        .next { s with mode := .faulted, faultRecord := some ⟨.memoryFault, s.pc, 0⟩ }) ∧
      (s.pc.toNat + 1 < 4096 → ∀ i, decode s.opcodeAtPc = .ok i → cycleWith p meaning s = meaning i s)) ∧
    ∀ x y n : Nibble,
      (0 < n.toNat → s.i.toNat + n.toNat - 1 ≥ 4096 → drwWith p x y n s =
        { s with mode := .faulted, faultRecord := some ⟨.memoryFault, s.pc, 0xD#4 ++ x ++ y ++ n⟩ }) ∧
      (n = 0 ∨ s.i.toNat + n.toNat - 1 < 4096 → (drwWith p x y n s).mode = s.mode)

/-! ### Frames -/

/-- An instruction changes no general register but those the table of the rule names for it: `VX`, and `VF` for the
flag-writing instructions and DRW, and `V0` to `VX` for LDM (10_state.md section 2). -/
def Obligations.InstructionsWriteOnlyTheirRegisters : Prop :=
  ∀ (i : Instr) (s t : State), exec i s = .next t → ∀ r, i.mayWriteV r = false → t.readV r = s.readV r

/-- An instruction changes no byte of memory but the bytes it stores: three at `I` for BCD, `X + 1` at `I` for STM, none for
any other instruction (20_memory.md section 2). -/
def Obligations.InstructionsWriteOnlyTheirBytes : Prop :=
  ∀ (i : Instr) (s t : State), exec i s = .next t →
    ∀ a, (∀ k < i.storedBytes, a ≠ s.operandAddr k) → Memory.read t.mem a = Memory.read s.mem a

/-- Every other piece of state changes by the instructions the spec names for it alone: `I` by LDX, ADDX and FONT; the
stack by CALL and RET; the timers by SDT and SST; the display and `DIRTY` by CLS and DRW; the mode by WKEY and by the two
stack faults (a CALL with 16 entries live, a RET with none), the fault record by those alone; the keys by no instruction (10_state.md sections 5 to 11,
42_index_and_memory.md section 2). The model's own fields: the count of random bytes by RND alone, the schedule by no
instruction (log entries 1 and 2). -/
def Obligations.OtherStateHasItsOwnWriters : Prop :=
  ∀ (i : Instr) (s t : State), exec i s = .next t →
    (i.mnemonic ∉ ["LDX", "ADDX", "FONT"] → t.i = s.i) ∧
    (i.mnemonic ∉ ["CALL", "RET"] → t.stack = s.stack) ∧
    (i.mnemonic ≠ "SDT" → t.dt = s.dt) ∧ (i.mnemonic ≠ "SST" → t.st = s.st) ∧
    (i.mnemonic ∉ ["CLS", "DRW"] → t.fb = s.fb ∧ t.dirty = s.dirty) ∧
    ((i.mnemonic = "CALL" → s.sp < 16) → (i.mnemonic = "RET" → 0 < s.sp) →
      t.faultRecord = s.faultRecord ∧ (i.mnemonic ≠ "WKEY" → t.mode = s.mode)) ∧
    (i.mnemonic ≠ "RND" → t.draws = s.draws) ∧ t.keys = s.keys ∧ t.schedule = s.schedule

/-- No instruction reads the sound timer, `DIRTY` or the fault record: with other values there it does the same to
everything else (10_state.md sections 8, 9 and 11). -/
def Obligations.NoInstructionReadsSoundDirtyOrFault : Prop :=
  ∀ (i : Instr) (s t : State) (a : Byte) (b : Bool) (r : Option FaultRecord), exec i s = .next t →
    ∃ a' b' r', exec i { s with st := a, dirty := b, faultRecord := r } =
      .next { t with st := a', dirty := b', faultRecord := r' }

/-! ### Whole-machine rules -/

/-- Every step answers a next state, and so does every operation of every run: no operation of this machine stops the model
(60_exceptions.md section 1, 00_scope.md section 4). -/
def Obligations.EveryStepAnswersANextState : Prop :=
  ∀ s : State, (∃ t, step s = .next t) ∧ ∀ (ops : Nat → Op) (n : Nat), ∃ t, run ops s n = .next t

/-- A step enters `FAULTED` only by a CALL with the stack full or a RET with it empty, and then nothing else has changed: the
record holds the cause, the address and the very opcode fetched, and the `CYCLE` answers Faulted (30_encoding.md section
1, 60_exceptions.md sections 1 and 4; decision D2, log entries 10, 11 and 22). -/
def Obligations.OnlyTheStackFaults : Prop :=
  ∀ s t : State, step s = .next t → s.mode ≠ .faulted → t.mode = .faulted →
    output .cycle s = .cycled .faulted none ∧
    ((∃ nnn, s.runs (.call nnn) ∧ 16 ≤ s.sp ∧ t = { s.unschedule with
      mode := .faulted, faultRecord := some ⟨.stackOverflow, s.pc, s.opcodeAtPc⟩ }) ∨
    (s.runs .ret ∧ s.sp = 0 ∧ t = { s.unschedule with
      mode := .faulted, faultRecord := some ⟨.stackUnderflow, s.pc, s.opcodeAtPc⟩ }))

/-- The wait for a key is entered only by WKEY, with its register as the target, and left only by a `RESOLVE` that finds a
key down or by `RESET` (10_state.md section 11, 44_keypad_and_timers.md section 3; log entry 28). -/
def Obligations.TheKeyWaitHasOneWayIn : Prop :=
  ∀ (s t : State) (x : Nibble), step s = .next t →
    (s.mode ≠ .awaitingKey x → t.mode = .awaitingKey x → s.runs (.wkey x)) ∧
    (s.mode = .awaitingKey x → t.mode ≠ .awaitingKey x →
      t.mode = .running ∧ (s.nextOp = .reset ∨ s.nextOp = .resolve ∧ ∃ k, s.key k = true ∧
        (t.readV x).toNat = k.toNat))

/-- `KEYS` changes by `SET_KEYS` alone, and then to what the host gives (10_state.md section 10). -/
def Obligations.OnlySetKeysWritesTheKeys : Prop :=
  ∀ s t : State, step s = .next t → t.keys = s.keys ∨ s.nextOp = .setKeys t.keys

/-- A program that jumps, calls and jumps through V0 to even addresses only keeps `PC` even: from an even `PC` with even
return addresses, a step leaves both so (20_memory.md section 2, 70_reset_and_hazards.md section 4). -/
def Obligations.EvenJumpsKeepThePcEven : Prop :=
  ∀ s t : State, step s = .next t → s.pc.toNat % 2 = 0 → (∀ a ∈ s.stack, a.toNat % 2 = 0) →
    (∀ i, s.runs i → i.targetEven = true) →
    (∀ nnn, s.runs (.jp0 nnn) → (nnn.toNat + (s.readV 0x0#4).toNat) % 2 = 0) →
    t.pc.toNat % 2 = 0 ∧ ∀ a ∈ t.stack, a.toNat % 2 = 0

/-- The invariant holds at reset (10_state.md section 12; the reset values are decision D8's, log entries 7 and 8). -/
def Obligations.TheInvariantHoldsAtReset : Prop := State.reset.Inv

/-- From every state that meets the invariant (memory in canonical form, at most 16 live stack entries, a fault recorded
exactly in `FAULTED`), a step by any operation gives a state that meets it, and every state of every run from there meets
it (10_state.md sections 11 and 12; the canonical form is the model's, log entry 8). -/
def Obligations.EveryStepKeepsTheInvariant : Prop :=
  ∀ s t : State, s.Inv → (step s = .next t → t.Inv) ∧ ∀ (ops : Nat → Op) (n : Nat), run ops s n = .next t → t.Inv
end

