-- ==== Sys2Proof/Laws/Decode.lean ====
section
/-! SUPPORT. The small laws of opcode words: the fields of a word built digit by digit (30_encoding.md R73), the three
masks of the opcode map in terms of the fields (R74), and the rows of the map (R71, R76). -/

namespace Sys2Proof

/-! ### Fields of a word written as digits -/

theorem fieldClass_nnn (c : Nibble) (nnn : Addr) : fieldClass (c ++ nnn) = c := by
  apply BitVec.eq_of_getLsbD_eq; intro k hk
  simp only [fieldClass, BitVec.getLsbD_extractLsb', BitVec.getLsbD_append]
  interval_cases k <;> simp
theorem fieldNNN_nnn (c : Nibble) (nnn : Addr) : fieldNNN (c ++ nnn) = nnn := by
  apply BitVec.eq_of_getLsbD_eq; intro k hk
  simp only [fieldNNN, BitVec.getLsbD_extractLsb', BitVec.getLsbD_append]
  simp [hk]

theorem fieldClass_xnn (c x : Nibble) (nn : Byte) : fieldClass (c ++ x ++ nn) = c := by
  apply BitVec.eq_of_getLsbD_eq; intro k hk
  simp only [fieldClass, BitVec.getLsbD_extractLsb', BitVec.getLsbD_append]
  interval_cases k <;> simp
theorem fieldX_xnn (c x : Nibble) (nn : Byte) : fieldX (c ++ x ++ nn) = x := by
  apply BitVec.eq_of_getLsbD_eq; intro k hk
  simp only [fieldX, BitVec.getLsbD_extractLsb', BitVec.getLsbD_append]
  interval_cases k <;> simp
theorem fieldNN_xnn (c x : Nibble) (nn : Byte) : fieldNN (c ++ x ++ nn) = nn := by
  apply BitVec.eq_of_getLsbD_eq; intro k hk
  simp only [fieldNN, BitVec.getLsbD_extractLsb', BitVec.getLsbD_append]
  simp [hk]

theorem fieldClass_xyn (c x y n : Nibble) : fieldClass (c ++ x ++ y ++ n) = c := by
  apply BitVec.eq_of_getLsbD_eq; intro k hk
  simp only [fieldClass, BitVec.getLsbD_extractLsb', BitVec.getLsbD_append]
  interval_cases k <;> simp
theorem fieldX_xyn (c x y n : Nibble) : fieldX (c ++ x ++ y ++ n) = x := by
  apply BitVec.eq_of_getLsbD_eq; intro k hk
  simp only [fieldX, BitVec.getLsbD_extractLsb', BitVec.getLsbD_append]
  interval_cases k <;> simp
theorem fieldY_xyn (c x y n : Nibble) : fieldY (c ++ x ++ y ++ n) = y := by
  apply BitVec.eq_of_getLsbD_eq; intro k hk
  simp only [fieldY, BitVec.getLsbD_extractLsb', BitVec.getLsbD_append]
  interval_cases k <;> simp
theorem fieldN_xyn (c x y n : Nibble) : fieldN (c ++ x ++ y ++ n) = n := by
  apply BitVec.eq_of_getLsbD_eq; intro k hk
  simp only [fieldN, BitVec.getLsbD_extractLsb', BitVec.getLsbD_append]
  simp [hk]

/-! ### A word is its digits -/

theorem word_eq_nnn (w : Word) : w = fieldClass w ++ fieldNNN w := by
  apply BitVec.eq_of_getLsbD_eq; intro k hk
  simp only [fieldClass, fieldNNN, BitVec.getLsbD_extractLsb', BitVec.getLsbD_append]
  interval_cases k <;> simp
theorem word_eq_xnn (w : Word) : w = fieldClass w ++ fieldX w ++ fieldNN w := by
  apply BitVec.eq_of_getLsbD_eq; intro k hk
  simp only [fieldClass, fieldX, fieldNN, BitVec.getLsbD_extractLsb', BitVec.getLsbD_append]
  interval_cases k <;> simp
theorem word_eq_xyn (w : Word) : w = fieldClass w ++ fieldX w ++ fieldY w ++ fieldN w := by
  apply BitVec.eq_of_getLsbD_eq; intro k hk
  simp only [fieldClass, fieldX, fieldY, fieldN, BitVec.getLsbD_extractLsb', BitVec.getLsbD_append]
  interval_cases k <;> simp

/-! ### The masks of the map, as fields -/

theorem maskClass (w : Word) : w &&& 0xF000#16 = fieldClass w ++ 0#12 := by
  apply BitVec.eq_of_getLsbD_eq; intro k hk
  simp only [fieldClass, BitVec.getLsbD_extractLsb', BitVec.getLsbD_append, BitVec.getLsbD_and]
  interval_cases k <;> simp
theorem maskXY (w : Word) : w &&& 0xF00F#16 = fieldClass w ++ 0#8 ++ fieldN w := by
  apply BitVec.eq_of_getLsbD_eq; intro k hk
  simp only [fieldClass, fieldN, BitVec.getLsbD_extractLsb', BitVec.getLsbD_append, BitVec.getLsbD_and]
  interval_cases k <;> simp
theorem maskX (w : Word) : w &&& 0xF0FF#16 = fieldClass w ++ 0#4 ++ fieldNN w := by
  apply BitVec.eq_of_getLsbD_eq; intro k hk
  simp only [fieldClass, fieldNN, BitVec.getLsbD_extractLsb', BitVec.getLsbD_append, BitVec.getLsbD_and]
  interval_cases k <;> simp

theorem maskClass_nnn (c : Nibble) (nnn : Addr) : (c ++ nnn) &&& 0xF000#16 = c ++ 0#12 := by
  rw [maskClass, fieldClass_nnn]
theorem maskClass_xnn (c x : Nibble) (nn : Byte) : (c ++ x ++ nn) &&& 0xF000#16 = c ++ 0#12 := by
  rw [maskClass, fieldClass_xnn]
theorem maskClass_xyn (c x y n : Nibble) : (c ++ x ++ y ++ n) &&& 0xF000#16 = c ++ 0#12 := by
  rw [maskClass, fieldClass_xyn]
theorem maskXY_xyn (c x y n : Nibble) : (c ++ x ++ y ++ n) &&& 0xF00F#16 = c ++ 0#8 ++ n := by
  rw [maskXY, fieldClass_xyn, fieldN_xyn]
theorem maskX_xnn (c x : Nibble) (nn : Byte) : (c ++ x ++ nn) &&& 0xF0FF#16 = c ++ 0#4 ++ nn := by
  rw [maskX, fieldClass_xnn, fieldNN_xnn]

/-! ### Rows of the map -/

/-- A word that matches a row of the map is an opcode of it. -/
theorem wellFormed_of_row {r : OpcodeRow} {w : Word} (hr : r ∈ opcodeTable) (h : w &&& r.mask = r.pattern) :
    Opcode.wellFormed w = true :=
  List.any_eq_true.2 ⟨r, hr, by simp [OpcodeRow.matchesWord, h]⟩

/-- The map has the 34 rows of the spec, one mnemonic each. -/
theorem opcodeTable_length : opcodeTable.length = 34 ∧ (opcodeTable.map OpcodeRow.mnemonic).Nodup := by decide

end Sys2Proof
end

