-- ==== Sys2Proof/Laws/Memory.lean ====
section
/-! SUPPORT. The laws of memory: a byte written is read back, every other byte is as it was, and every memory operation
keeps the canonical form. -/

namespace Sys2Proof.Machine

/-! ### The constants, as numbers -/

@[simp] theorem memSize_eq : Config.memSize = 4096 := rfl
@[simp] theorem progBase_eq : Config.progBase = 512 := rfl
@[simp] theorem stackDepth_eq : Config.stackDepth = 16 := rfl
@[simp] theorem maxProgram_eq : Config.maxProgram = 3584 := rfl

/-! ### Read after write -/

theorem read_insert (m : Memory) (a b : Nat) (v : Byte) :
    Memory.read (Memory.insert m a v) b = if b = a then v else Memory.read m b := by
  induction m with
  | nil => simp [Memory.insert, Memory.read]
  | cons c m ih =>
    obtain ⟨k, w⟩ := c
    simp only [Memory.insert]
    split
    · simp [Memory.read]
    · split
      · next h => subst h; simp only [Memory.read]; split <;> rfl
      · next hne =>
        simp only [Memory.read, ih]
        by_cases h1 : b = k
        · have : b ≠ a := fun e => hne (e ▸ h1)
          simp [h1, h1 ▸ this]
        · simp [h1]

theorem read_erase (m : Memory) (a b : Nat) :
    Memory.read (Memory.erase m a) b = if b = a then Memory.resetByte a else Memory.read m b := by
  induction m with
  | nil =>
    simp only [Memory.erase, List.filter_nil, Memory.read]
    split <;> simp_all
  | cons c m ih =>
    obtain ⟨k, w⟩ := c
    simp only [Memory.erase] at ih ⊢
    by_cases hk : k = a
    · subst hk
      simp only [List.filter_cons, bne_self_eq_false, Bool.false_eq_true, if_false, ih, Memory.read]
      split <;> simp_all
    · simp only [List.filter_cons, bne_iff_ne, ne_eq, hk, not_false_eq_true, if_true, Memory.read, ih]
      by_cases h1 : b = k
      · have : b ≠ a := fun e => hk (h1 ▸ e)
        simp [h1, hk]
      · simp [h1]

/-- Reading any byte after writing one. -/
theorem read_write (m : Memory) (a b : Nat) (v : Byte) :
    Memory.read (Memory.write m a v) b = if b = a then v else Memory.read m b := by
  unfold Memory.write
  split
  · next h => rw [read_erase, h]
  · exact read_insert m a b v

@[simp] theorem read_write_same (m : Memory) (a : Nat) (v : Byte) :
    Memory.read (Memory.write m a v) a = v := by simp [read_write]

@[simp] theorem read_write_other (m : Memory) {a b : Nat} (h : b ≠ a) (v : Byte) :
    Memory.read (Memory.write m a v) b = Memory.read m b := by simp [read_write, h]

/-! ### The canonical form -/

/-- What the canonical form says, as a proposition. -/
theorem wf_iff (m : Memory) : Memory.wf m = true ↔
    m.Pairwise (fun c d => c.1 < d.1) ∧ ∀ c ∈ m, c.1 < 4096 ∧ c.2 ≠ Memory.resetByte c.1 := by
  simp [Memory.wf]

theorem wf_nil : Memory.wf [] = true := by simp [wf_iff]

theorem mem_insert {m : Memory} {a : Nat} {v : Byte} {c : Host.Cell} (h : c ∈ Memory.insert m a v) :
    c = (a, v) ∨ c ∈ m := by
  induction m with
  | nil => simpa [Memory.insert] using h
  | cons d m ih =>
    obtain ⟨k, w⟩ := d
    simp only [Memory.insert] at h
    split at h
    · simpa using h
    · split at h
      · rcases List.mem_cons.1 h with h | h <;> simp [h]
      · rcases List.mem_cons.1 h with h | h
        · simp [h]
        · rcases ih h with h | h <;> simp [h]

theorem insert_wf {m : Memory} (hm : Memory.wf m = true) {a : Nat} (ha : a < 4096) {v : Byte}
    (hv : v ≠ Memory.resetByte a) : Memory.wf (Memory.insert m a v) = true := by
  induction m with
  | nil => simp [Memory.insert, wf_iff, ha, hv]
  | cons c m ih =>
    obtain ⟨k, w⟩ := c
    have hwf := (wf_iff _).1 hm
    obtain ⟨hp, hall⟩ := hwf
    rw [List.pairwise_cons] at hp
    have htail : Memory.wf m = true :=
      (wf_iff _).2 ⟨hp.2, fun c hc => hall c (List.mem_cons_of_mem _ hc)⟩
    simp only [Memory.insert]
    split
    · next hlt =>
      refine (wf_iff _).2 ⟨List.pairwise_cons.2 ⟨?_, List.pairwise_cons.2 hp⟩, ?_⟩
      · intro c hc
        rcases List.mem_cons.1 hc with rfl | hc
        · exact hlt
        · exact Nat.lt_trans hlt (hp.1 c hc)
      · intro c hc
        rcases List.mem_cons.1 hc with rfl | hc
        · exact ⟨ha, hv⟩
        · exact hall c hc
    · split
      · next heq =>
        subst heq
        refine (wf_iff _).2 ⟨List.pairwise_cons.2 ⟨fun c hc => hp.1 c hc, hp.2⟩, ?_⟩
        intro c hc
        rcases List.mem_cons.1 hc with rfl | hc
        · exact ⟨ha, hv⟩
        · exact hall c (List.mem_cons_of_mem _ hc)
      · next hge hne =>
        have hi := (wf_iff _).1 (ih htail)
        refine (wf_iff _).2 ⟨List.pairwise_cons.2 ⟨?_, hi.1⟩, ?_⟩
        · intro c hc
          rcases mem_insert hc with rfl | hc
          · show k < a
            omega
          · exact hp.1 c hc
        · intro c hc
          rcases List.mem_cons.1 hc with rfl | hc
          · exact hall _ (List.mem_cons_self ..)
          · exact hi.2 c hc

theorem erase_wf {m : Memory} (hm : Memory.wf m = true) (a : Nat) : Memory.wf (Memory.erase m a) = true := by
  obtain ⟨hp, hall⟩ := (wf_iff _).1 hm
  exact (wf_iff _).2 ⟨hp.filter _, fun c hc => hall c (List.mem_filter.1 hc).1⟩

/-- A write inside memory keeps the canonical form. -/
theorem write_wf {m : Memory} (hm : Memory.wf m = true) {a : Nat} (ha : a < 4096) (v : Byte) :
    Memory.wf (Memory.write m a v) = true := by
  unfold Memory.write
  split
  · exact erase_wf hm a
  · next h => exact insert_wf hm ha h

/-- A run of writes that stays inside memory keeps the canonical form. -/
theorem writeRun_wf (bs : List Byte) : ∀ {m : Memory} {a : Nat}, Memory.wf m = true → a + bs.length ≤ 4096 →
    Memory.wf (Memory.writeRun m a bs) = true := by
  induction bs with
  | nil => intro m a hm _; exact hm
  | cons b bs ih =>
    intro m a hm ha
    simp only [List.length_cons] at ha
    exact ih (write_wf hm (by omega) b) (by omega)

/-- What a run of writes leaves at an address: its byte of the run, or what was there. -/
theorem read_writeRun (bs : List Byte) : ∀ (m : Memory) (a c : Nat),
    Memory.read (Memory.writeRun m a bs) c =
      if a ≤ c ∧ c < a + bs.length then bs.getD (c - a) 0 else Memory.read m c := by
  induction bs with
  | nil => intro m a c; simp only [Memory.writeRun, List.length_nil]; split <;> first | omega | rfl
  | cons b bs ih =>
    intro m a c
    simp only [Memory.writeRun, ih, read_write, List.length_cons]
    by_cases h1 : c = a
    · subst h1; simp
    · by_cases h2 : a + 1 ≤ c ∧ c < a + 1 + bs.length
      · have h3 : a ≤ c ∧ c < a + (bs.length + 1) := by omega
        obtain ⟨k, rfl⟩ : ∃ k, c = a + 1 + k := ⟨c - (a + 1), by omega⟩
        have e1 : a + 1 + k - (a + 1) = k := by omega
        have e2 : a + 1 + k - a = k + 1 := by omega
        simp only [if_pos h2, if_pos h3, e1, e2, List.getD_cons_succ]
      · have h3 : ¬(a ≤ c ∧ c < a + (bs.length + 1)) := by omega
        simp only [if_neg h2, if_neg h3, if_neg h1]

end Sys2Proof.Machine
end

