-- ==== Sys2Proof/Laws/State.lean ====
section
/-! SUPPORT. The small lemmas of the named updates of State: one per field an update leaves alone, and what it does to
the field it writes. Every later proof cites these (they are simp lemmas) and unfolds no record update. -/

namespace Sys2Proof.Machine

variable (s : State)

/-! ### writeV -/

@[simp] theorem writeV_i (x : Nibble) (b : Byte) : (s.writeV x b).i = s.i := rfl
@[simp] theorem writeV_pc (x : Nibble) (b : Byte) : (s.writeV x b).pc = s.pc := rfl
@[simp] theorem writeV_stack (x : Nibble) (b : Byte) : (s.writeV x b).stack = s.stack := rfl
@[simp] theorem writeV_dt (x : Nibble) (b : Byte) : (s.writeV x b).dt = s.dt := rfl
@[simp] theorem writeV_st (x : Nibble) (b : Byte) : (s.writeV x b).st = s.st := rfl
@[simp] theorem writeV_mem (x : Nibble) (b : Byte) : (s.writeV x b).mem = s.mem := rfl
@[simp] theorem writeV_fb (x : Nibble) (b : Byte) : (s.writeV x b).fb = s.fb := rfl
@[simp] theorem writeV_dirty (x : Nibble) (b : Byte) : (s.writeV x b).dirty = s.dirty := rfl
@[simp] theorem writeV_keys (x : Nibble) (b : Byte) : (s.writeV x b).keys = s.keys := rfl
@[simp] theorem writeV_mode (x : Nibble) (b : Byte) : (s.writeV x b).mode = s.mode := rfl
@[simp] theorem writeV_faultRecord (x : Nibble) (b : Byte) : (s.writeV x b).faultRecord = s.faultRecord := rfl
@[simp] theorem writeV_draws (x : Nibble) (b : Byte) : (s.writeV x b).draws = s.draws := rfl
@[simp] theorem writeV_schedule (x : Nibble) (b : Byte) : (s.writeV x b).schedule = s.schedule := rfl

/-! ### advance -/

@[simp] theorem advance_v : (s.advance).v = s.v := rfl
@[simp] theorem advance_i : (s.advance).i = s.i := rfl
@[simp] theorem advance_stack : (s.advance).stack = s.stack := rfl
@[simp] theorem advance_dt : (s.advance).dt = s.dt := rfl
@[simp] theorem advance_st : (s.advance).st = s.st := rfl
@[simp] theorem advance_mem : (s.advance).mem = s.mem := rfl
@[simp] theorem advance_fb : (s.advance).fb = s.fb := rfl
@[simp] theorem advance_dirty : (s.advance).dirty = s.dirty := rfl
@[simp] theorem advance_keys : (s.advance).keys = s.keys := rfl
@[simp] theorem advance_mode : (s.advance).mode = s.mode := rfl
@[simp] theorem advance_faultRecord : (s.advance).faultRecord = s.faultRecord := rfl
@[simp] theorem advance_draws : (s.advance).draws = s.draws := rfl
@[simp] theorem advance_schedule : (s.advance).schedule = s.schedule := rfl

/-! ### jump -/

@[simp] theorem jump_v (t : Word) : (s.jump t).v = s.v := rfl
@[simp] theorem jump_i (t : Word) : (s.jump t).i = s.i := rfl
@[simp] theorem jump_stack (t : Word) : (s.jump t).stack = s.stack := rfl
@[simp] theorem jump_dt (t : Word) : (s.jump t).dt = s.dt := rfl
@[simp] theorem jump_st (t : Word) : (s.jump t).st = s.st := rfl
@[simp] theorem jump_mem (t : Word) : (s.jump t).mem = s.mem := rfl
@[simp] theorem jump_fb (t : Word) : (s.jump t).fb = s.fb := rfl
@[simp] theorem jump_dirty (t : Word) : (s.jump t).dirty = s.dirty := rfl
@[simp] theorem jump_keys (t : Word) : (s.jump t).keys = s.keys := rfl
@[simp] theorem jump_mode (t : Word) : (s.jump t).mode = s.mode := rfl
@[simp] theorem jump_faultRecord (t : Word) : (s.jump t).faultRecord = s.faultRecord := rfl
@[simp] theorem jump_draws (t : Word) : (s.jump t).draws = s.draws := rfl
@[simp] theorem jump_schedule (t : Word) : (s.jump t).schedule = s.schedule := rfl

/-! ### skipIf -/

@[simp] theorem skipIf_v (c : Bool) : (s.skipIf c).v = s.v := rfl
@[simp] theorem skipIf_i (c : Bool) : (s.skipIf c).i = s.i := rfl
@[simp] theorem skipIf_stack (c : Bool) : (s.skipIf c).stack = s.stack := rfl
@[simp] theorem skipIf_dt (c : Bool) : (s.skipIf c).dt = s.dt := rfl
@[simp] theorem skipIf_st (c : Bool) : (s.skipIf c).st = s.st := rfl
@[simp] theorem skipIf_mem (c : Bool) : (s.skipIf c).mem = s.mem := rfl
@[simp] theorem skipIf_fb (c : Bool) : (s.skipIf c).fb = s.fb := rfl
@[simp] theorem skipIf_dirty (c : Bool) : (s.skipIf c).dirty = s.dirty := rfl
@[simp] theorem skipIf_keys (c : Bool) : (s.skipIf c).keys = s.keys := rfl
@[simp] theorem skipIf_mode (c : Bool) : (s.skipIf c).mode = s.mode := rfl
@[simp] theorem skipIf_faultRecord (c : Bool) : (s.skipIf c).faultRecord = s.faultRecord := rfl
@[simp] theorem skipIf_draws (c : Bool) : (s.skipIf c).draws = s.draws := rfl
@[simp] theorem skipIf_schedule (c : Bool) : (s.skipIf c).schedule = s.schedule := rfl

/-! ### raise -/

@[simp] theorem raise_v (p : Params) (cause : FaultCause) (op : Word) : (s.raise p cause op).v = s.v := rfl
@[simp] theorem raise_i (p : Params) (cause : FaultCause) (op : Word) : (s.raise p cause op).i = s.i := rfl
@[simp] theorem raise_stack (p : Params) (cause : FaultCause) (op : Word) : (s.raise p cause op).stack = s.stack := rfl
@[simp] theorem raise_dt (p : Params) (cause : FaultCause) (op : Word) : (s.raise p cause op).dt = s.dt := rfl
@[simp] theorem raise_st (p : Params) (cause : FaultCause) (op : Word) : (s.raise p cause op).st = s.st := rfl
@[simp] theorem raise_mem (p : Params) (cause : FaultCause) (op : Word) : (s.raise p cause op).mem = s.mem := rfl
@[simp] theorem raise_fb (p : Params) (cause : FaultCause) (op : Word) : (s.raise p cause op).fb = s.fb := rfl
@[simp] theorem raise_dirty (p : Params) (cause : FaultCause) (op : Word) : (s.raise p cause op).dirty = s.dirty := rfl
@[simp] theorem raise_keys (p : Params) (cause : FaultCause) (op : Word) : (s.raise p cause op).keys = s.keys := rfl
@[simp] theorem raise_draws (p : Params) (cause : FaultCause) (op : Word) : (s.raise p cause op).draws = s.draws := rfl
@[simp] theorem raise_schedule (p : Params) (cause : FaultCause) (op : Word) : (s.raise p cause op).schedule = s.schedule := rfl

/-! ### fillRegs -/

@[simp] theorem fillRegs_i (bs : List Byte) : (s.fillRegs bs).i = s.i := rfl
@[simp] theorem fillRegs_pc (bs : List Byte) : (s.fillRegs bs).pc = s.pc := rfl
@[simp] theorem fillRegs_stack (bs : List Byte) : (s.fillRegs bs).stack = s.stack := rfl
@[simp] theorem fillRegs_dt (bs : List Byte) : (s.fillRegs bs).dt = s.dt := rfl
@[simp] theorem fillRegs_st (bs : List Byte) : (s.fillRegs bs).st = s.st := rfl
@[simp] theorem fillRegs_mem (bs : List Byte) : (s.fillRegs bs).mem = s.mem := rfl
@[simp] theorem fillRegs_fb (bs : List Byte) : (s.fillRegs bs).fb = s.fb := rfl
@[simp] theorem fillRegs_dirty (bs : List Byte) : (s.fillRegs bs).dirty = s.dirty := rfl
@[simp] theorem fillRegs_keys (bs : List Byte) : (s.fillRegs bs).keys = s.keys := rfl
@[simp] theorem fillRegs_mode (bs : List Byte) : (s.fillRegs bs).mode = s.mode := rfl
@[simp] theorem fillRegs_faultRecord (bs : List Byte) : (s.fillRegs bs).faultRecord = s.faultRecord := rfl
@[simp] theorem fillRegs_draws (bs : List Byte) : (s.fillRegs bs).draws = s.draws := rfl
@[simp] theorem fillRegs_schedule (bs : List Byte) : (s.fillRegs bs).schedule = s.schedule := rfl

/-! ### What each update does to the field it writes -/

@[simp] theorem advance_pc : s.advance.pc = s.pc + 2 := rfl
@[simp] theorem jump_pc (t : Word) : (s.jump t).pc = t := rfl
@[simp] theorem skipIf_pc_true : (s.skipIf true).pc = s.pc + 4 := by
  simp [State.skipIf, State.npc, BitVec.add_assoc]
@[simp] theorem skipIf_pc_false : (s.skipIf false).pc = s.pc + 2 := rfl
@[simp] theorem raise_pc_hardware (cause : FaultCause) (op : Word) :
    (s.raise Params.hardware cause op).pc = s.pc := rfl
@[simp] theorem raise_mode (p : Params) (cause : FaultCause) (op : Word) :
    (s.raise p cause op).mode = .faulted := rfl
@[simp] theorem raise_faultRecord (p : Params) (cause : FaultCause) (op : Word) :
    (s.raise p cause op).faultRecord = some ⟨cause, s.pc, op⟩ := rfl

/-! ### Reading a register after an update -/

@[simp] theorem readV_advance (x : Nibble) : s.advance.readV x = s.readV x := rfl
@[simp] theorem readV_jump (t : Word) (x : Nibble) : (s.jump t).readV x = s.readV x := rfl
@[simp] theorem readV_skipIf (c : Bool) (x : Nibble) : (s.skipIf c).readV x = s.readV x := rfl
@[simp] theorem readV_raise (p : Params) (cause : FaultCause) (op : Word) (x : Nibble) :
    (s.raise p cause op).readV x = s.readV x := rfl

@[simp] theorem readV_writeV_same (x : Nibble) (b : Byte) : (s.writeV x b).readV x = b := by
  simp [State.readV, State.writeV]

@[simp] theorem readV_writeV_other {x y : Nibble} (h : y ≠ x) (b : Byte) :
    (s.writeV x b).readV y = s.readV y := by
  have : x.toNat ≠ y.toNat := fun e => h (BitVec.eq_of_toNat_eq e.symm)
  simp [State.readV, State.writeV, Vector.getElem_set_ne, this]

/-- A register read depends on the register file alone. -/
theorem readV_congr {s t : State} (h : s.v = t.v) (x : Nibble) : s.readV x = t.readV x := by
  simp [State.readV, h]

/-- Reading any register after writing one. -/
theorem readV_writeV (x y : Nibble) (b : Byte) :
    (s.writeV x b).readV y = if y = x then b else s.readV y := by
  by_cases h : y = x
  · subst h; simp
  · simp [h]

/-- Two states with the same sixteen registers, read one by one, hold the same register file. -/
theorem v_ext {s t : State} (h : ∀ x : Nibble, s.readV x = t.readV x) : s.v = t.v := by
  apply Vector.ext
  intro k hk
  have := h (BitVec.ofNat 4 k)
  simpa [State.readV, BitVec.toNat_ofNat, Nat.mod_eq_of_lt hk] using this

/-- Writing back what a register holds changes nothing. -/
theorem writeV_readV_self (x : Nibble) : s.writeV x (s.readV x) = s := by
  simp [State.writeV, State.readV]

/-! ### The flag-writing pair on this hardware (R133) -/

@[simp] theorem writeFlagged_hardware (x : Nibble) (f r : Byte) :
    s.writeFlagged Params.hardware x f r = (s.writeV vf f).writeV x r := rfl

/-- The register written by the flag order of this hardware: the result in `VX`, the flag in `VF` unless `X = F`. -/
theorem readV_writeFlagged_hardware (x y : Nibble) (f r : Byte) :
    (s.writeFlagged Params.hardware x f r).readV y =
      if y = x then r else if y = vf then f else s.readV y := by
  simp [readV_writeV]

/-! ### Loading a run of registers (R145) -/

/-- After a run of registers is loaded, a register holds its byte of the run, or what it held where the run ends before
it. -/
theorem readV_fillRegs (bs : List Byte) (x : Nibble) :
    (s.fillRegs bs).readV x = bs.getD x.toNat (s.readV x) := by
  simp [State.readV, State.fillRegs]

/-! ### The schedule -/

@[simp] theorem unschedule_schedule : s.unschedule.schedule = s.schedule.tail := rfl

/-- A state with nothing scheduled is its own remainder. -/
theorem unschedule_of_empty (h : s.schedule = []) : s.unschedule = s := by
  cases s; simp_all [State.unschedule]

@[simp] theorem unschedule_v : s.unschedule.v = s.v := rfl
@[simp] theorem unschedule_i : s.unschedule.i = s.i := rfl
@[simp] theorem unschedule_pc : s.unschedule.pc = s.pc := rfl
@[simp] theorem unschedule_stack : s.unschedule.stack = s.stack := rfl
@[simp] theorem unschedule_dt : s.unschedule.dt = s.dt := rfl
@[simp] theorem unschedule_st : s.unschedule.st = s.st := rfl
@[simp] theorem unschedule_mem : s.unschedule.mem = s.mem := rfl
@[simp] theorem unschedule_fb : s.unschedule.fb = s.fb := rfl
@[simp] theorem unschedule_dirty : s.unschedule.dirty = s.dirty := rfl
@[simp] theorem unschedule_keys : s.unschedule.keys = s.keys := rfl
@[simp] theorem unschedule_mode : s.unschedule.mode = s.mode := rfl
@[simp] theorem unschedule_faultRecord : s.unschedule.faultRecord = s.faultRecord := rfl
@[simp] theorem unschedule_draws : s.unschedule.draws = s.draws := rfl
@[simp] theorem readV_unschedule (x : Nibble) : s.unschedule.readV x = s.readV x := rfl

end Sys2Proof.Machine
end

