-- ==== Sys2Proof/Laws/Operands.lean ====
section
/-! SUPPORT. One law per operand form: what the effective address, the runs of bytes at `I`, the fetch and the digits
are on this hardware, and where they fault under `OOB_MODE = FAULT`. -/

namespace Sys2Proof.Machine

/-! ### The effective address (R52) -/

@[simp] theorem effAddr_hardware (a : Nat) : effAddr Params.hardware a = some (a % 4096) := rfl

/-- An effective address is inside memory, whatever the parameters. -/
theorem effAddr_lt {p : Params} {a k : Nat} (h : effAddr p a = some k) : k < 4096 := by
  simp only [effAddr, memSize_eq] at h
  split at h
  · simp only [Option.some.injEq] at h; omega
  · split at h
    · simp only [Option.some.injEq] at h; omega
    · simp at h

/-- Under `OOB_MODE = FAULT` an address faults exactly at 4096 and above. -/
theorem effAddr_fault {p : Params} (hp : p.oobMode = .fault) (a : Nat) :
    effAddr p a = if a < 4096 then some a else none := by
  simp [effAddr, hp]

/-! ### Reading a run (R54) -/

/-- On this hardware a run of reads never faults: byte `k` is the one at `(base + k) mod 4096`. -/
theorem readSpan_hardware (m : Memory) (n : Nat) : ∀ base : Nat, readSpan Params.hardware m base n =
    some ((List.range n).map fun k => Memory.read m ((base + k) % 4096)) := by
  induction n with
  | zero => intro base; rfl
  | succ n ih =>
    intro base
    simp only [readSpan, effAddr_hardware, ih, List.range_succ_eq_map, List.map_cons, List.map_map, Nat.add_zero,
      Option.some.injEq, List.cons.injEq, true_and]
    apply List.map_congr_left
    intro k _
    simp only [Function.comp]
    congr 2
    omega

/-- A run that succeeds has as many bytes as were asked for. -/
theorem readSpan_length {p : Params} {m : Memory} {n : Nat} : ∀ {base : Nat} {bs : List Byte},
    readSpan p m base n = some bs → bs.length = n := by
  induction n with
  | zero => intro base bs h; simp only [readSpan, Option.some.injEq] at h; subst h; rfl
  | succ n ih =>
    intro base bs h
    simp only [readSpan] at h
    split at h
    · next h1 h2 =>
      simp only [Option.some.injEq] at h
      subst h
      simp [ih h2]
    · simp at h

/-- Under `OOB_MODE = FAULT` a run that passes 4095 faults. -/
theorem readSpan_fault {p : Params} (hp : p.oobMode = .fault) (m : Memory) (n : Nat) : ∀ {base : Nat},
    4096 < base + (n + 1) → readSpan p m base (n + 1) = none := by
  induction n with
  | zero =>
    intro base h
    have : ¬ base < 4096 := by omega
    simp [readSpan, effAddr_fault hp, this]
  | succ n ih =>
    intro base h
    have := ih (base := base + 1) (by omega)
    rw [readSpan, this]
    split <;> simp_all

/-! ### Writing a run (R54, R55) -/

/-- On this hardware a run of writes never faults. -/
theorem writeSpan_hardware_some (bs : List Byte) : ∀ (m : Memory) (base : Nat),
    ∃ m', writeSpan Params.hardware m base bs = some m' := by
  induction bs with
  | nil => intro m base; exact ⟨m, rfl⟩
  | cons b bs ih =>
    intro m base
    simp only [writeSpan, effAddr_hardware]
    exact ih _ _

/-- A run of writes leaves every byte outside it as it was. -/
theorem read_writeSpan_other (bs : List Byte) : ∀ {m m' : Memory} {base c : Nat},
    writeSpan Params.hardware m base bs = some m' → (∀ k < bs.length, c ≠ (base + k) % 4096) →
    Memory.read m' c = Memory.read m c := by
  induction bs with
  | nil => intro m m' base c h _; simp only [writeSpan, Option.some.injEq] at h; rw [h]
  | cons b bs ih =>
    intro m m' base c h hc
    simp only [writeSpan, effAddr_hardware] at h
    rw [ih h]
    · exact read_write_other _ (hc 0 (by simp)) _
    · intro k hk
      have := hc (k + 1) (by simpa using hk)
      rwa [show base + 1 + k = base + (k + 1) by omega]

/-- A run of at most 4096 writes puts byte `k` of the run at `(base + k) mod 4096`. -/
theorem read_writeSpan_stored (bs : List Byte) : ∀ {m m' : Memory} {base k : Nat},
    writeSpan Params.hardware m base bs = some m' → bs.length ≤ 4096 → k < bs.length →
    Memory.read m' ((base + k) % 4096) = bs.getD k 0 := by
  induction bs with
  | nil => intro m m' base k _ _ hk; simp at hk
  | cons b bs ih =>
    intro m m' base k h hlen hk
    simp only [writeSpan, effAddr_hardware] at h
    simp only [List.length_cons] at hlen hk
    cases k with
    | zero =>
      rw [read_writeSpan_other bs h]
      · simp
      · intro k hk'
        omega
    | succ k =>
      have := ih h (by omega) (k := k) (by omega)
      rw [show base + (k + 1) = base + 1 + k by omega]
      simpa using this

/-- A run of writes keeps the canonical form, whatever the parameters. -/
theorem writeSpan_wf {p : Params} (bs : List Byte) : ∀ {m m' : Memory} {base : Nat}, Memory.wf m = true →
    writeSpan p m base bs = some m' → Memory.wf m' = true := by
  induction bs with
  | nil => intro m m' base hm h; simp only [writeSpan, Option.some.injEq] at h; exact h ▸ hm
  | cons b bs ih =>
    intro m m' base hm h
    simp only [writeSpan] at h
    split at h
    · next a ha => exact ih (write_wf hm (effAddr_lt ha) b) h
    · simp at h

/-- Under `OOB_MODE = FAULT` a run that passes 4095 faults, and so nothing is written. -/
theorem writeSpan_fault {p : Params} (hp : p.oobMode = .fault) (b : Byte) (bs : List Byte) :
    ∀ {m : Memory} {base : Nat}, 4096 < base + (bs.length + 1) → writeSpan p m base (b :: bs) = none := by
  induction bs generalizing b with
  | nil =>
    intro m base h
    simp only [List.length_nil] at h
    have : ¬ base < 4096 := by omega
    simp [writeSpan, effAddr_fault hp, this]
  | cons c bs ih =>
    intro m base h
    simp only [List.length_cons] at h
    rw [writeSpan]
    split
    · exact ih c (by omega)
    · rfl

/-- On this hardware a store at `I` completes: it advances `PC` and changes memory by its run of writes only. -/
theorem storeAtI_hardware (s : State) (op : Word) (bs : List Byte) :
    ∃ m, writeSpan Params.hardware s.mem s.i.toNat bs = some m ∧
      s.storeAtI Params.hardware op bs = { s.advance with mem := m } := by
  obtain ⟨m, hm⟩ := writeSpan_hardware_some bs s.mem s.i.toNat
  exact ⟨m, hm, by simp [State.storeAtI, hm]⟩

/-! ### The fetch (R51) -/

/-- On this hardware the fetch never faults: the opcode is the two bytes at `PC` and `PC + 1`, mod 4096, the first one
high. -/
theorem fetchWord_hardware (s : State) : fetchWord Params.hardware s =
    some (wordOfBytes (Memory.read s.mem (s.pc.toNat % 4096)) (Memory.read s.mem ((s.pc.toNat + 1) % 4096))) := rfl

/-- An opcode is the word of its two bytes. -/
theorem wordOfBytes_bytes (w : Word) : wordOfBytes (highByte w) (lowByte w) = w := by
  apply BitVec.eq_of_getLsbD_eq
  intro k hk
  simp only [wordOfBytes, highByte, lowByte, BitVec.getLsbD_append, BitVec.getLsbD_extractLsb']
  by_cases h : k < 8
  · simp [h]
  · have : k - 8 < 8 := by omega
    have e : 8 + (k - 8) = k := by omega
    simp [h, this, e]

/-- A placed opcode is what the next fetch reads. -/
theorem fetchWord_placeOpcode (s : State) (op : Word) : fetchWord Params.hardware (s.placeOpcode op) = some op := by
  rw [fetchWord_hardware]
  have h : s.pc.toNat % 4096 ≠ (s.pc.toNat + 1) % 4096 := by omega
  simp [State.placeOpcode, h, wordOfBytes_bytes]

/-! ### The decimal digits (R143) -/

/-- The three digits are at most 2, 9 and 9, and together make the byte. -/
theorem bcdDigits_value (b : Byte) : ∃ h t o : Byte, bcdDigits b = [h, t, o] ∧ h.toNat ≤ 2 ∧ t.toNat ≤ 9 ∧
    o.toNat ≤ 9 ∧ b.toNat = 100 * h.toNat + 10 * t.toNat + o.toNat := by
  have := b.isLt
  refine ⟨_, _, _, rfl, ?_, ?_, ?_, ?_⟩ <;> simp only [BitVec.toNat_ofNat] <;> omega

end Sys2Proof.Machine
end

