-- ==== Sys2Proof/Laws/Display.lean ====
section
/-! SUPPORT. The laws of the display: which screen pixels a sprite covers (R162, R164), that it covers none twice
(R163 (d)), and what flipping them leaves. -/

namespace Sys2Proof.Machine

/-! ### Flipping pixels -/

theorem pixel_flip (fb : FrameBuffer) (q : Fin 64 × Fin 32) (x : Fin 64) (y : Fin 32) :
    (fb.flip q).pixel x y = (fb.pixel x y ^^ decide (q = (x, y))) := by
  obtain ⟨qx, qy⟩ := q
  simp only [FrameBuffer.pixel, FrameBuffer.flip, Prod.mk.injEq]
  by_cases hy : qy = y
  · subst hy
    have hx := x.isLt
    have hq := qx.isLt
    have : (decide (63 - qx.val = 63 - x.val)) = decide (qx = x) := by
      rw [decide_eq_decide, Fin.ext_iff]; omega
    simp [BitVec.getMsbD, hx, BitVec.getLsbD_twoPow, this]
    intro h; omega
  · have : qy.val ≠ y.val := fun e => hy (Fin.ext e)
    simp [hy, Vector.getElem_set_ne, this]

/-- Flipping a list of pixels, none listed twice, flips exactly those. -/
theorem pixel_foldl_flip (l : List (Fin 64 × Fin 32)) : ∀ (fb : FrameBuffer), l.Nodup → ∀ (x : Fin 64) (y : Fin 32),
    (l.foldl FrameBuffer.flip fb).pixel x y = (fb.pixel x y ^^ decide ((x, y) ∈ l)) := by
  induction l with
  | nil => intro fb _ x y; simp
  | cons q l ih =>
    intro fb hnd x y
    rw [List.nodup_cons] at hnd
    rw [List.foldl_cons, ih _ hnd.2, pixel_flip]
    by_cases hq : q = (x, y)
    · subst hq; simp [hnd.1]
    · have : (x, y) ≠ q := fun e => hq e.symm
      simp [hq, this]

@[simp] theorem pixel_clear (x : Fin 64) (y : Fin 32) : FrameBuffer.clear.pixel x y = false := by
  simp [FrameBuffer.pixel, FrameBuffer.clear]

/-- Two buffers with the same pixels are the same buffer. -/
theorem frameBuffer_ext {fb fb' : FrameBuffer} (h : ∀ x y, fb.pixel x y = fb'.pixel x y) : fb = fb' := by
  apply Vector.ext
  intro k hk
  apply BitVec.eq_of_getMsbD_eq
  intro c hc
  exact h ⟨c, hc⟩ ⟨k, hk⟩

/-! ### The pixels under a sprite -/

theorem mem_litInRow {p : Params} {x0 y : Nat} {b : Byte} {q : Fin 64 × Fin 32} : q ∈ litInRow p x0 y b ↔
    ∃ c < 8, spriteBit p b c = true ∧ q = (Fin.ofNat 64 (x0 + c), Fin.ofNat 32 y) := by
  simp only [litInRow, List.mem_map, List.mem_filter, List.mem_range]
  constructor
  · rintro ⟨c, ⟨hc, hb⟩, rfl⟩; exact ⟨c, hc, hb, rfl⟩
  · rintro ⟨c, hc, hb, rfl⟩; exact ⟨c, ⟨hc, hb⟩, rfl⟩

/-- A screen pixel is under a lit pixel of the sprite exactly when some row `r` and column `c` of the sprite have their
bit set and land on it after reduction (R162, R164). -/
theorem mem_litPixels {p : Params} {x0 : Nat} {q : Fin 64 × Fin 32} (rows : List Byte) : ∀ {y : Nat},
    q ∈ litPixels p x0 y rows ↔ ∃ r, ∃ h : r < rows.length, ∃ c < 8, spriteBit p rows[r] c = true ∧
      q = (Fin.ofNat 64 (x0 + c), Fin.ofNat 32 (y + r)) := by
  induction rows with
  | nil => intro y; simp [litPixels]
  | cons b rows ih =>
    intro y
    rw [litPixels, List.mem_append, mem_litInRow, ih]
    constructor
    · rintro (⟨c, hc, hb, rfl⟩ | ⟨r, hr, c, hc, hb, rfl⟩)
      · exact ⟨0, by simp, c, hc, by simpa using hb, by simp⟩
      · exact ⟨r + 1, by simpa using hr, c, hc, by simpa using hb, by rw [Nat.add_right_comm y 1 r]; rfl⟩
    · rintro ⟨r, hr, c, hc, hb, rfl⟩
      cases r with
      | zero => exact .inl ⟨c, hc, by simpa using hb, by simp⟩
      | succ r =>
        refine .inr ⟨r, by simpa using hr, c, hc, by simpa using hb, ?_⟩
        rw [Nat.add_right_comm y 1 r]; rfl

theorem litInRow_nodup (p : Params) (x0 y : Nat) (b : Byte) : (litInRow p x0 y b).Nodup := by
  unfold litInRow
  refine List.Nodup.map_on ?_ (List.nodup_range.filter _)
  intro a ha c hc h
  simp only [List.mem_filter, List.mem_range] at ha hc
  have h1 := congrArg (fun q : Fin 64 × Fin 32 => q.1.val) h
  simp only [Fin.ofNat] at h1
  omega

/-- A sprite of at most 32 rows covers no screen pixel twice (R163 (d)). -/
theorem litPixels_nodup (p : Params) (x0 : Nat) (rows : List Byte) : ∀ {y : Nat}, rows.length ≤ 32 →
    (litPixels p x0 y rows).Nodup := by
  induction rows with
  | nil => intro y _; exact List.nodup_nil
  | cons b rows ih =>
    intro y hlen
    simp only [List.length_cons] at hlen
    rw [litPixels, List.nodup_append]
    refine ⟨litInRow_nodup p x0 y b, ih (by omega), ?_⟩
    intro q hq q' hq' heq
    subst heq
    obtain ⟨c, _, _, h1⟩ := mem_litInRow.1 hq
    obtain ⟨r, hr, c', _, _, h2⟩ := (mem_litPixels rows).1 hq'
    have h3 := congrArg (fun q : Fin 64 × Fin 32 => q.2.val) (h1.symm.trans h2)
    simp only [Fin.ofNat] at h3
    omega

/-- The flag of a draw: 1 exactly when a pixel that was on is under a lit pixel of the sprite. -/
theorem collisionFlag_eq (fb : FrameBuffer) (lit : List (Fin 64 × Fin 32)) :
    collisionFlag fb lit = if ∃ q ∈ lit, fb.pixel q.1 q.2 = true then 1 else 0 := by
  simp only [collisionFlag, flagByte, List.any_eq_true]

@[simp] theorem dirtyAfter_hardware (s : State) (fb : FrameBuffer) :
    s.dirtyAfter Params.hardware fb = true := rfl

/-- What a draw of `rows` is on this hardware (R162). -/
theorem drwWith_hardware (x y n : Nibble) (s : State) : ∃ rows : List Byte,
    rows = (List.range n.toNat).map (fun r => Memory.read s.mem ((s.i.toNat + r) % 4096)) ∧
    drwWith Params.hardware x y n s =
      { s.advance.writeV vf (collisionFlag s.fb
          (litPixels Params.hardware ((s.readV x).toNat % 64) ((s.readV y).toNat % 32) rows)) with
        fb := (litPixels Params.hardware ((s.readV x).toNat % 64) ((s.readV y).toNat % 32) rows).foldl
          FrameBuffer.flip s.fb
        dirty := true } := by
  refine ⟨_, rfl, ?_⟩
  simp only [drwWith, readSpan_hardware, dirtyAfter_hardware]

end Sys2Proof.Machine
end

