-- ==== Sys2Proof/Laws/Ops.lean ====
section
/-! SUPPORT. One law per shared operation: what the stack, the skip and the flag computations do, so that no proof
unfolds them. -/

namespace Sys2Proof.Machine

/-! ### The call stack (R29) -/

theorem push_of_room {v : Word} {st : List Word} (h : st.length < 16) : push v st = some (v :: st) := by
  simp [push, h]

theorem push_of_full {v : Word} {st : List Word} (h : 16 ≤ st.length) : push v st = none := by
  simp [push, h]

/-- What a push that succeeds leaves, and when it does. -/
theorem push_eq_some {v : Word} {st st' : List Word} : push v st = some st' ↔ st.length < 16 ∧ st' = v :: st := by
  simp only [push, Config.stackDepth]
  split <;> simp_all [eq_comm]

/-- Entries below the newest are the entries of the rest, numbered the same. -/
theorem reverse_cons_getElem? (a : Word) (rest : List Word) {k : Nat} (hk : k < rest.length) :
    (a :: rest).reverse[k]? = rest.reverse[k]? := by
  rw [List.reverse_cons, List.getElem?_append_left (by simpa using hk)]

/-! ### The skip template (R103) -/

theorem skipIf_pc_toNat (s : State) (c : Bool) :
    (s.skipIf c).pc.toNat = (s.pc.toNat + if c then 4 else 2) % 65536 := by
  cases c <;> simp [BitVec.toNat_add]

/-! ### Flags (R23) -/

theorem flagByte_toNat (b : Bool) : (flagByte b).toNat = if b then 1 else 0 := by cases b <;> rfl

theorem carryFlag_toNat (a b : Byte) : (carryFlag a b).toNat = if a.toNat + b.toNat > 255 then 1 else 0 := by
  simp [carryFlag, flagByte_toNat]

/-- On this hardware the comparison is strict. -/
@[simp] theorem subtractFlag_hardware (a b : Byte) :
    subtractFlag Params.hardware a b = flagByte (decide (a.toNat > b.toNat)) := rfl

theorem shiftRightFlag_toNat (b : Byte) : (shiftRightFlag b).toNat = b.toNat % 2 := by
  revert b; decide

theorem shiftLeftFlag_toNat (b : Byte) : (shiftLeftFlag b).toNat = b.toNat / 128 := by
  revert b; decide

/-- On this hardware the shifts read `VX` and ignore `Y`. -/
@[simp] theorem shiftOperand_hardware (s : State) (x y : Nibble) :
    s.shiftOperand Params.hardware x y = s.readV x := rfl

end Sys2Proof.Machine
end

