-- ==== Sys2Proof/Laws/PerInstr.lean ====
section
/-! SUPPORT. Per-instruction laws: the family `WellFormedEncoding` says of every instruction that its word is an opcode
of the map (30_encoding.md R71, R76). One lemma per constructor. -/

/-- The instruction's word is an opcode of the map. -/
def Sys2Proof.Laws.WellFormedEncoding.Statement (i : Sys2Proof.Instr) : Prop := i.wellFormed = true

open Sys2Proof

theorem Sys2Proof.Laws.WellFormedEncoding.cls :
    Sys2Proof.Laws.WellFormedEncoding.Statement .cls :=
  wellFormed_of_row (r := ⟨"CLS", 0x00E0#16, 0xFFFF#16⟩) (by simp [opcodeTable]) (rfl)

theorem Sys2Proof.Laws.WellFormedEncoding.ret :
    Sys2Proof.Laws.WellFormedEncoding.Statement .ret :=
  wellFormed_of_row (r := ⟨"RET", 0x00EE#16, 0xFFFF#16⟩) (by simp [opcodeTable]) (rfl)

theorem Sys2Proof.Laws.WellFormedEncoding.jp (nnn : Addr) :
    Sys2Proof.Laws.WellFormedEncoding.Statement (.jp nnn) :=
  wellFormed_of_row (r := ⟨"JP", 0x1000#16, 0xF000#16⟩) (by simp [opcodeTable]) (maskClass_nnn _ _)

theorem Sys2Proof.Laws.WellFormedEncoding.call (nnn : Addr) :
    Sys2Proof.Laws.WellFormedEncoding.Statement (.call nnn) :=
  wellFormed_of_row (r := ⟨"CALL", 0x2000#16, 0xF000#16⟩) (by simp [opcodeTable]) (maskClass_nnn _ _)

theorem Sys2Proof.Laws.WellFormedEncoding.se (x : Nibble) (nn : Byte) :
    Sys2Proof.Laws.WellFormedEncoding.Statement (.se x nn) :=
  wellFormed_of_row (r := ⟨"SE", 0x3000#16, 0xF000#16⟩) (by simp [opcodeTable]) (maskClass_xnn _ _ _)

theorem Sys2Proof.Laws.WellFormedEncoding.sne (x : Nibble) (nn : Byte) :
    Sys2Proof.Laws.WellFormedEncoding.Statement (.sne x nn) :=
  wellFormed_of_row (r := ⟨"SNE", 0x4000#16, 0xF000#16⟩) (by simp [opcodeTable]) (maskClass_xnn _ _ _)

theorem Sys2Proof.Laws.WellFormedEncoding.ser (x : Nibble) (y : Nibble) :
    Sys2Proof.Laws.WellFormedEncoding.Statement (.ser x y) :=
  wellFormed_of_row (r := ⟨"SER", 0x5000#16, 0xF00F#16⟩) (by simp [opcodeTable]) (maskXY_xyn _ _ _ _)

theorem Sys2Proof.Laws.WellFormedEncoding.ldi (x : Nibble) (nn : Byte) :
    Sys2Proof.Laws.WellFormedEncoding.Statement (.ldi x nn) :=
  wellFormed_of_row (r := ⟨"LDI", 0x6000#16, 0xF000#16⟩) (by simp [opcodeTable]) (maskClass_xnn _ _ _)

theorem Sys2Proof.Laws.WellFormedEncoding.addi (x : Nibble) (nn : Byte) :
    Sys2Proof.Laws.WellFormedEncoding.Statement (.addi x nn) :=
  wellFormed_of_row (r := ⟨"ADDI", 0x7000#16, 0xF000#16⟩) (by simp [opcodeTable]) (maskClass_xnn _ _ _)

theorem Sys2Proof.Laws.WellFormedEncoding.mov (x : Nibble) (y : Nibble) :
    Sys2Proof.Laws.WellFormedEncoding.Statement (.mov x y) :=
  wellFormed_of_row (r := ⟨"MOV", 0x8000#16, 0xF00F#16⟩) (by simp [opcodeTable]) (maskXY_xyn _ _ _ _)

theorem Sys2Proof.Laws.WellFormedEncoding.or (x : Nibble) (y : Nibble) :
    Sys2Proof.Laws.WellFormedEncoding.Statement (.or x y) :=
  wellFormed_of_row (r := ⟨"OR", 0x8001#16, 0xF00F#16⟩) (by simp [opcodeTable]) (maskXY_xyn _ _ _ _)

theorem Sys2Proof.Laws.WellFormedEncoding.and (x : Nibble) (y : Nibble) :
    Sys2Proof.Laws.WellFormedEncoding.Statement (.and x y) :=
  wellFormed_of_row (r := ⟨"AND", 0x8002#16, 0xF00F#16⟩) (by simp [opcodeTable]) (maskXY_xyn _ _ _ _)

theorem Sys2Proof.Laws.WellFormedEncoding.xor (x : Nibble) (y : Nibble) :
    Sys2Proof.Laws.WellFormedEncoding.Statement (.xor x y) :=
  wellFormed_of_row (r := ⟨"XOR", 0x8003#16, 0xF00F#16⟩) (by simp [opcodeTable]) (maskXY_xyn _ _ _ _)

theorem Sys2Proof.Laws.WellFormedEncoding.add (x : Nibble) (y : Nibble) :
    Sys2Proof.Laws.WellFormedEncoding.Statement (.add x y) :=
  wellFormed_of_row (r := ⟨"ADD", 0x8004#16, 0xF00F#16⟩) (by simp [opcodeTable]) (maskXY_xyn _ _ _ _)

theorem Sys2Proof.Laws.WellFormedEncoding.sub (x : Nibble) (y : Nibble) :
    Sys2Proof.Laws.WellFormedEncoding.Statement (.sub x y) :=
  wellFormed_of_row (r := ⟨"SUB", 0x8005#16, 0xF00F#16⟩) (by simp [opcodeTable]) (maskXY_xyn _ _ _ _)

theorem Sys2Proof.Laws.WellFormedEncoding.shr (x : Nibble) (y : Nibble) :
    Sys2Proof.Laws.WellFormedEncoding.Statement (.shr x y) :=
  wellFormed_of_row (r := ⟨"SHR", 0x8006#16, 0xF00F#16⟩) (by simp [opcodeTable]) (maskXY_xyn _ _ _ _)

theorem Sys2Proof.Laws.WellFormedEncoding.subn (x : Nibble) (y : Nibble) :
    Sys2Proof.Laws.WellFormedEncoding.Statement (.subn x y) :=
  wellFormed_of_row (r := ⟨"SUBN", 0x8007#16, 0xF00F#16⟩) (by simp [opcodeTable]) (maskXY_xyn _ _ _ _)

theorem Sys2Proof.Laws.WellFormedEncoding.shl (x : Nibble) (y : Nibble) :
    Sys2Proof.Laws.WellFormedEncoding.Statement (.shl x y) :=
  wellFormed_of_row (r := ⟨"SHL", 0x800E#16, 0xF00F#16⟩) (by simp [opcodeTable]) (maskXY_xyn _ _ _ _)

theorem Sys2Proof.Laws.WellFormedEncoding.sner (x : Nibble) (y : Nibble) :
    Sys2Proof.Laws.WellFormedEncoding.Statement (.sner x y) :=
  wellFormed_of_row (r := ⟨"SNER", 0x9000#16, 0xF00F#16⟩) (by simp [opcodeTable]) (maskXY_xyn _ _ _ _)

theorem Sys2Proof.Laws.WellFormedEncoding.ldx (nnn : Addr) :
    Sys2Proof.Laws.WellFormedEncoding.Statement (.ldx nnn) :=
  wellFormed_of_row (r := ⟨"LDX", 0xA000#16, 0xF000#16⟩) (by simp [opcodeTable]) (maskClass_nnn _ _)

theorem Sys2Proof.Laws.WellFormedEncoding.jp0 (nnn : Addr) :
    Sys2Proof.Laws.WellFormedEncoding.Statement (.jp0 nnn) :=
  wellFormed_of_row (r := ⟨"JP0", 0xB000#16, 0xF000#16⟩) (by simp [opcodeTable]) (maskClass_nnn _ _)

theorem Sys2Proof.Laws.WellFormedEncoding.rnd (x : Nibble) (nn : Byte) :
    Sys2Proof.Laws.WellFormedEncoding.Statement (.rnd x nn) :=
  wellFormed_of_row (r := ⟨"RND", 0xC000#16, 0xF000#16⟩) (by simp [opcodeTable]) (maskClass_xnn _ _ _)

theorem Sys2Proof.Laws.WellFormedEncoding.drw (x : Nibble) (y : Nibble) (n : Nibble) :
    Sys2Proof.Laws.WellFormedEncoding.Statement (.drw x y n) :=
  wellFormed_of_row (r := ⟨"DRW", 0xD000#16, 0xF000#16⟩) (by simp [opcodeTable]) (maskClass_xyn _ _ _ _)

theorem Sys2Proof.Laws.WellFormedEncoding.skp (x : Nibble) :
    Sys2Proof.Laws.WellFormedEncoding.Statement (.skp x) :=
  wellFormed_of_row (r := ⟨"SKP", 0xE09E#16, 0xF0FF#16⟩) (by simp [opcodeTable]) (maskX_xnn _ _ _)

theorem Sys2Proof.Laws.WellFormedEncoding.sknp (x : Nibble) :
    Sys2Proof.Laws.WellFormedEncoding.Statement (.sknp x) :=
  wellFormed_of_row (r := ⟨"SKNP", 0xE0A1#16, 0xF0FF#16⟩) (by simp [opcodeTable]) (maskX_xnn _ _ _)

theorem Sys2Proof.Laws.WellFormedEncoding.gdt (x : Nibble) :
    Sys2Proof.Laws.WellFormedEncoding.Statement (.gdt x) :=
  wellFormed_of_row (r := ⟨"GDT", 0xF007#16, 0xF0FF#16⟩) (by simp [opcodeTable]) (maskX_xnn _ _ _)

theorem Sys2Proof.Laws.WellFormedEncoding.wkey (x : Nibble) :
    Sys2Proof.Laws.WellFormedEncoding.Statement (.wkey x) :=
  wellFormed_of_row (r := ⟨"WKEY", 0xF00A#16, 0xF0FF#16⟩) (by simp [opcodeTable]) (maskX_xnn _ _ _)

theorem Sys2Proof.Laws.WellFormedEncoding.sdt (x : Nibble) :
    Sys2Proof.Laws.WellFormedEncoding.Statement (.sdt x) :=
  wellFormed_of_row (r := ⟨"SDT", 0xF015#16, 0xF0FF#16⟩) (by simp [opcodeTable]) (maskX_xnn _ _ _)

theorem Sys2Proof.Laws.WellFormedEncoding.sst (x : Nibble) :
    Sys2Proof.Laws.WellFormedEncoding.Statement (.sst x) :=
  wellFormed_of_row (r := ⟨"SST", 0xF018#16, 0xF0FF#16⟩) (by simp [opcodeTable]) (maskX_xnn _ _ _)

theorem Sys2Proof.Laws.WellFormedEncoding.addx (x : Nibble) :
    Sys2Proof.Laws.WellFormedEncoding.Statement (.addx x) :=
  wellFormed_of_row (r := ⟨"ADDX", 0xF01E#16, 0xF0FF#16⟩) (by simp [opcodeTable]) (maskX_xnn _ _ _)

theorem Sys2Proof.Laws.WellFormedEncoding.font (x : Nibble) :
    Sys2Proof.Laws.WellFormedEncoding.Statement (.font x) :=
  wellFormed_of_row (r := ⟨"FONT", 0xF029#16, 0xF0FF#16⟩) (by simp [opcodeTable]) (maskX_xnn _ _ _)

theorem Sys2Proof.Laws.WellFormedEncoding.bcd (x : Nibble) :
    Sys2Proof.Laws.WellFormedEncoding.Statement (.bcd x) :=
  wellFormed_of_row (r := ⟨"BCD", 0xF033#16, 0xF0FF#16⟩) (by simp [opcodeTable]) (maskX_xnn _ _ _)

theorem Sys2Proof.Laws.WellFormedEncoding.stm (x : Nibble) :
    Sys2Proof.Laws.WellFormedEncoding.Statement (.stm x) :=
  wellFormed_of_row (r := ⟨"STM", 0xF055#16, 0xF0FF#16⟩) (by simp [opcodeTable]) (maskX_xnn _ _ _)

theorem Sys2Proof.Laws.WellFormedEncoding.ldm (x : Nibble) :
    Sys2Proof.Laws.WellFormedEncoding.Statement (.ldm x) :=
  wellFormed_of_row (r := ⟨"LDM", 0xF065#16, 0xF0FF#16⟩) (by simp [opcodeTable]) (maskX_xnn _ _ _)
end

