-- ==== Sys2Proof/Laws/Step.lean ====
section
/-! SUPPORT. What a step is, by the host's schedule and the mode, so that later proofs case on the operation and on the
decoded instruction and do not unfold the step. -/

namespace Sys2Proof.Machine

/-! ### The next operation -/

theorem step_of_empty {s : State} (h : s.schedule = []) : step s = cycle s := by
  rw [step, unschedule_of_empty s h, State.nextOp, h]
  rfl

theorem step_of_cons {s : State} {op : Op} {rest : List Op} (h : s.schedule = op :: rest) :
    step s = operate op { s with schedule := rest } := by
  simp [step, State.nextOp, State.unschedule, h]

/-! ### One cycle, by mode and opcode -/

theorem fetchWord_eq_opcodeAtPc (s : State) : fetchWord Params.hardware s = some s.opcodeAtPc := rfl

theorem cycle_faulted {s : State} (h : s.mode = .faulted) : cycle s = .next s := by simp [cycle, cycleWith, h]

theorem cycle_awaiting {s : State} {t : Nibble} (h : s.mode = .awaitingKey t) : cycle s = .next s := by
  simp [cycle, cycleWith, h]

/-- Held or halted. -/
theorem cycle_of_not_running {s : State} (h : s.mode ≠ .running) : cycle s = .next s := by
  cases hm : s.mode with
  | running => exact absurd hm h
  | awaitingKey t => exact cycle_awaiting hm
  | faulted => exact cycle_faulted hm

theorem cycle_running {s : State} (h : s.mode = .running) : cycle s =
    match decode s.opcodeAtPc with
    | .ok i => exec i s
    | .error _ => .next s.advance := by
  simp only [cycle, cycleWith, h, fetchWord_eq_opcodeAtPc]
  rfl

/-- What a `CYCLE` can do: nothing (held or halted), one decoded instruction, or the no-op of an unknown opcode. -/
theorem cycle_cases {s : State} {r : Result} (h : cycle s = r) :
    (s.mode ≠ .running ∧ r = .next s) ∨
    (∃ i, s.mode = .running ∧ decode s.opcodeAtPc = .ok i ∧ r = exec i s) ∨
    (∃ e, s.mode = .running ∧ decode s.opcodeAtPc = .error e ∧ r = .next s.advance) := by
  cases hm : s.mode with
  | faulted => exact .inl ⟨by simp, by rw [← h, cycle_faulted hm]⟩
  | awaitingKey t => exact .inl ⟨by simp, by rw [← h, cycle_awaiting hm]⟩
  | running =>
    rw [cycle_running hm] at h
    cases hd : decode s.opcodeAtPc with
    | ok i => exact .inr (.inl ⟨i, rfl, rfl, by rw [← h, hd]⟩)
    | error e => exact .inr (.inr ⟨e, rfl, rfl, by rw [← h, hd]⟩)

/-- The remainder of the schedule does not change what is fetched. -/
@[simp] theorem opcodeAtPc_unschedule (s : State) : s.unschedule.opcodeAtPc = s.opcodeAtPc := rfl

/-- What a step can do: a cycle, or one of the host's operations. -/
theorem step_cases {s : State} {r : Result} (h : step s = r) :
    (s.nextOp = .cycle ∧ r = cycle s.unschedule) ∨
    (s.nextOp = .reset ∧ r = .next s.unschedule.doReset) ∨
    (∃ bs, s.nextOp = .load bs ∧ r = .next (s.unschedule.doLoad Params.hardware bs)) ∨
    (∃ k, s.nextOp = .setKeys k ∧ r = .next (s.unschedule.doSetKeys k)) ∨
    (s.nextOp = .resolve ∧ r = .next s.unschedule.doResolve) ∨
    (s.nextOp = .tick ∧ r = .next (s.unschedule.doTick Params.hardware)) ∨
    (s.nextOp = .dirtyAck ∧ r = .next s.unschedule.doDirtyAck) := by
  rw [step] at h
  cases hop : s.nextOp <;> rw [hop] at h <;> simp only [operate] at h <;> subst h <;> simp

/-- A placed opcode is what the next step executes. -/
theorem step_placeOpcode (s : State) (op : Word) : step (s.placeOpcode op) =
    match decode op with
    | .ok i => exec i (s.placeOpcode op)
    | .error _ => .next (s.placeOpcode op).advance := by
  rw [step_of_empty rfl, cycle_running rfl]
  have : (s.placeOpcode op).opcodeAtPc = op := Option.some.inj (fetchWord_placeOpcode s op)
  rw [this]

end Sys2Proof.Machine
end

