-- ==== Sys2Proof/Laws/Run.lean ====
section
/-! SUPPORT. Runs: no operation looks at what the host has still to issue, one operation can be taken off a run's front,
and what every operation keeps holds along every run. -/

namespace Sys2Proof.Machine

/-! ### The schedule is not looked at -/

theorem exec_schedule {i : Instr} {s t : State} (l : List Op) (h : exec i s = .next t) :
    exec i { s with schedule := l } = .next { t with schedule := l } := by
  cases i
  case call nnn =>
    simp only [exec, execCall] at h ⊢
    have e : State.npc { s with schedule := l } = s.npc := rfl
    rw [e]
    cases hp : push s.npc s.stack <;> rw [hp] at h <;> cases h <;> rfl
  case ret =>
    simp only [exec, execRet] at h ⊢
    cases hp : pop s.stack <;> rw [hp] at h <;> cases h <;> rfl
  case bcd x =>
    obtain ⟨m, hm⟩ := writeSpan_hardware_some (bcdDigits (s.readV x)) s.mem s.i.toNat
    have hm' : writeSpan Params.hardware s.mem s.i.toNat
        (bcdDigits (State.readV { s with schedule := l } x)) = some m := hm
    simp only [exec, execBcd, bcdWith, State.storeAtI, hm] at h
    simp only [exec, execBcd, bcdWith, State.storeAtI, hm']
    cases h
    rfl
  case stm x =>
    obtain ⟨m, hm⟩ := writeSpan_hardware_some (s.regsUpTo x) s.mem s.i.toNat
    have hm' : writeSpan Params.hardware s.mem s.i.toNat
        (State.regsUpTo { s with schedule := l } x) = some m := hm
    simp only [exec, execStm, stmWith, State.storeAtI, hm] at h
    simp only [exec, execStm, stmWith, State.storeAtI, hm']
    cases h
    rfl
  case ldm x =>
    simp only [exec, execLdm, ldmWith, readSpan_hardware] at h ⊢
    cases h
    rfl
  case drw x y n =>
    simp only [exec, execDrw, drwWith, readSpan_hardware] at h ⊢
    cases h
    rfl
  all_goals cases h; rfl

theorem cycle_schedule {s t : State} (l : List Op) (h : cycle s = .next t) :
    cycle { s with schedule := l } = .next { t with schedule := l } := by
  have hmode : (State.mode { s with schedule := l }) = s.mode := rfl
  have hop : State.opcodeAtPc { s with schedule := l } = s.opcodeAtPc := rfl
  rcases cycle_cases h with ⟨hm, e⟩ | ⟨i, hm, hd, e⟩ | ⟨r, hm, hd, e⟩
  · cases e
    exact cycle_of_not_running hm
  · rw [cycle_running (hmode.trans hm), hop, hd]
    exact exec_schedule l e.symm
  · rw [cycle_running (hmode.trans hm), hop, hd]
    cases e
    rfl

/-- An operation does the same whatever the host has still to issue, and leaves that as it is. -/
theorem operate_schedule {op : Op} {s t : State} (l : List Op) (h : operate op s = .next t) :
    operate op { s with schedule := l } = .next { t with schedule := l } := by
  cases op with
  | cycle => exact cycle_schedule l h
  | reset => cases h; rfl
  | setKeys k => cases h; rfl
  | load bytes =>
    cases h
    have e : loadAccepted Params.hardware bytes { s with schedule := l } = loadAccepted Params.hardware bytes s := rfl
    simp only [operate, State.doLoad, e]
    split <;> rfl
  | resolve =>
    cases h
    simp only [operate, State.doResolve]
    split
    · split <;> rfl
    · rfl
    · rfl
  | tick =>
    cases h
    have e : tickCounts Params.hardware { s with schedule := l } = tickCounts Params.hardware s := rfl
    simp only [operate, State.doTick, e]
    split <;> rfl
  | dirtyAck =>
    cases h
    simp only [operate, State.doDirtyAck]
    split <;> rfl

/-! ### Runs -/

@[simp] theorem run_zero (ops : Nat → Op) (s : State) : run ops s 0 = .next s := rfl

/-- The first operation of a run, and the run of the others from what it leaves. -/
theorem run_front {ops : Nat → Op} {s t : State} (h : operate (ops 0) s = .next t) (n : Nat) :
    run ops s (n + 1) = run (fun k => ops (k + 1)) t n := by
  induction n with
  | zero => exact h
  | succ n ih => rw [run, ih, run]

/-- What every operation keeps holds after every number of operations of every run. -/
theorem run_keeps {P : State → Prop} (hop : ∀ op s t, P s → operate op s = .next t → P t) (ops : Nat → Op) {s : State}
    (hs : P s) : ∀ n t, run ops s n = .next t → P t
  | 0, _, h => by cases h; exact hs
  | n + 1, t, h => by
    rw [run] at h
    cases hr : run ops s n with
    | next u => rw [hr] at h; exact hop _ _ _ (run_keeps hop ops hs n u hr) h
    | fault r => rw [hr] at h; cases h
    | refused r => rw [hr] at h; cases h

end Sys2Proof.Machine
end

