-- ==== Sys2Proof/Machine/Assembly.lean ====
section
/-! DEFINITION. The spec's assembler notation (30_encoding.md R80 to R82): how an instruction is written, and the
directives DB, DW and ORG. It is notation only: the machine never reads it (log entry 31). -/

namespace Sys2Proof.Machine

/-- A hexadecimal digit, capital. -/
def hexDigit (d : Nibble) : Char := "0123456789ABCDEF".toList.getD d.toNat '0'

/-- `V0` .. `VF` (R80). -/
def regText (x : Nibble) : String := String.ofList ['V', hexDigit x]

/-- An immediate byte, `0x` and two digits (R80). -/
def byteText (b : Byte) : String := "0x" ++ String.ofList [hexDigit (b.extractLsb' 4 4), hexDigit (b.extractLsb' 0 4)]

/-- An address, `0x` and three digits (R80). -/
def addrText (a : Addr) : String :=
  "0x" ++ String.ofList [hexDigit (a.extractLsb' 8 4), hexDigit (a.extractLsb' 4 4), hexDigit (a.extractLsb' 0 4)]

/-- The operands of an instruction as text, in the order R81 gives them. -/
def operandTexts : Instr → List String
  | .cls => []
  | .ret => []
  | .jp nnn => [addrText nnn]
  | .call nnn => [addrText nnn]
  | .se x nn => [regText x, byteText nn]
  | .sne x nn => [regText x, byteText nn]
  | .ser x y => [regText x, regText y]
  | .ldi x nn => [regText x, byteText nn]
  | .addi x nn => [regText x, byteText nn]
  | .mov x y => [regText x, regText y]
  | .or x y => [regText x, regText y]
  | .and x y => [regText x, regText y]
  | .xor x y => [regText x, regText y]
  | .add x y => [regText x, regText y]
  | .sub x y => [regText x, regText y]
  | .shr x y => [regText x, regText y]
  | .subn x y => [regText x, regText y]
  | .shl x y => [regText x, regText y]
  | .sner x y => [regText x, regText y]
  | .ldx nnn => [addrText nnn]
  | .jp0 nnn => [addrText nnn]
  | .rnd x nn => [regText x, byteText nn]
  | .drw x y n => [regText x, regText y, toString n.toNat]
  | .skp x => [regText x]
  | .sknp x => [regText x]
  | .gdt x => [regText x]
  | .wkey x => [regText x]
  | .sdt x => [regText x]
  | .sst x => [regText x]
  | .addx x => [regText x]
  | .font x => [regText x]
  | .bcd x => [regText x]
  | .stm x => [regText x]
  | .ldm x => [regText x]

/-- `MNEMONIC operand, operand` (R80). -/
def instrText (i : Instr) : String :=
  match operandTexts i with
  | [] => i.mnemonic
  | ops => i.mnemonic ++ " " ++ String.intercalate ", " ops

/-- One line of a source program: an instruction or a directive (R82). -/
inductive Line where
  | instr (i : Instr)
  | db (bytes : List Byte)
  | dw (w : Word)
  | org (addr : Nat)
  deriving DecidableEq, Repr

/-- The bytes a line emits: an opcode or a DW word high byte first, ORG none (R82). -/
def Line.emitted : Line → List Byte
  | .instr i => encodeBytes i
  | .db bytes => bytes
  | .dw w => [highByte w, lowByte w]
  | .org _ => []

/-- A program's bytes with their addresses, the next byte going to `at'` (R82). -/
def assembleFrom : Nat → List Line → List Host.Cell
  | _, [] => []
  | _, .org addr :: rest => assembleFrom addr rest
  | at', line :: rest =>
    (line.emitted.zipIdx at').map (fun c => (c.2, c.1)) ++ assembleFrom (at' + line.emitted.length) rest

/-- A program's bytes with their addresses; programs start at 0x200 (R82). -/
def assemble (program : List Line) : List Host.Cell := assembleFrom Config.progBase program

end Sys2Proof.Machine
end

