-- ==== Sys2Proof/Tests/Slice0.lean ====
section
/-! SUPPORT. Tests: the static checks refuse ill-formed terms; words written out from the spec's patterns decode; one
step of each instruction and operation on a small state, the expected values being those of 95_test_vectors.md, whose
vector a test's comment names; and a witness for the hypotheses of every statement that has some. -/

namespace Sys2Proof.Tests

open Sys2Proof Sys2Proof.Machine

/-! ### Helpers -/

/-- The vectors' start state: reset, the opcode at `PC`, the registers given. -/
def start (op : Word) (regs : List (Nibble × Byte)) : State :=
  regs.foldl (fun s r => s.writeV r.1 r.2) (State.reset.placeOpcode op)

/-- Reset with bytes in memory from an address on. -/
def State.holding (s : State) (a : Nat) (bytes : List Byte) : State := { s with mem := Memory.writeRun s.mem a bytes }

/-- The keys with the given indices down. -/
def keysDown (ks : List Nat) : Vector Bool 16 := Vector.ofFn fun k => ks.contains k.val

/-- What is seen of the next state; `none` if there is none. -/
def seen {α : Type} (r : Result) (f : State → α) : Option α :=
  match r with
  | .next t => some (f t)
  | .fault _ => none
  | .refused _ => none

/-- The parameters with the other `OOB_MODE`. -/
def faultParams : Params := { Params.hardware with oobMode := .fault }

/-- A core halted by a return with the stack empty (T-FLT-1). -/
def halted : State :=
  { State.reset with mode := .faulted, faultRecord := some ⟨.stackUnderflow, 0x0200#16, 0x00EE#16⟩ }

/-- A core that awaits a key for V5 with the given keys down. -/
def waiting (ks : List Nat) : State :=
  { State.reset with mode := .awaitingKey 0x5#4, keys := keysDown ks }

/-! ### The static checks -/

theorem test_refuses_unknown_words :
    Opcode.wellFormed 0x00E1#16 = false ∧ Opcode.wellFormed 0x0123#16 = false ∧ Opcode.wellFormed 0x5121#16 = false ∧
    Opcode.wellFormed 0x8128#16 = false ∧ Opcode.wellFormed 0x912F#16 = false ∧ Opcode.wellFormed 0xE19F#16 = false ∧
    Opcode.wellFormed 0xF1FF#16 = false := by decide

theorem test_accepts_known_words :
    Opcode.wellFormed 0x00E0#16 = true ∧ Opcode.wellFormed 0x5120#16 = true ∧ Opcode.wellFormed 0x812E#16 = true ∧
    Opcode.wellFormed 0xE19E#16 = true ∧ Opcode.wellFormed 0xF165#16 = true := by decide

/-- 3584 bytes fit above 0x200, 3585 do not. -/
theorem test_refuses_a_long_program :
    Program.fits (List.replicate 3584 1) = true ∧ Program.fits (List.replicate 3585 1) = false := by
  simp only [Program.fits, List.length_replicate]; decide

theorem test_refuses_an_odd_target :
    (Instr.jp 0x201#12).targetEven = false ∧ (Instr.call 0x2FF#12).targetEven = false ∧
    (Instr.jp 0x200#12).targetEven = true := by decide

/-- A memory that lists an address twice, out of order, past the end, or with its reset byte, is not in canonical form. -/
theorem test_refuses_a_bad_memory :
    Memory.wf [(0x200, 1), (0x200, 2)] = false ∧ Memory.wf [(0x201, 1), (0x200, 2)] = false ∧
    Memory.wf [(4096, 1)] = false ∧ Memory.wf [(0x200, 0)] = false ∧ Memory.wf [(0, 0xF0)] = false ∧
    Memory.wf [(0, 0), (0x200, 1)] = true := by decide

/-! ### Decoding: words written out from the patterns of the opcode map -/

theorem test_decode_control :
    decode 0x00EE#16 = .ok .ret ∧ decode 0x1ABC#16 = .ok (.jp 0xABC#12) ∧ decode 0x2ABC#16 = .ok (.call 0xABC#12) ∧
    decode 0x3A10#16 = .ok (.se 0xA#4 0x10#8) ∧ decode 0x4A11#16 = .ok (.sne 0xA#4 0x11#8) ∧
    decode 0x5120#16 = .ok (.ser 0x1#4 0x2#4) ∧ decode 0x9120#16 = .ok (.sner 0x1#4 0x2#4) ∧
    decode 0xBFFF#16 = .ok (.jp0 0xFFF#12) := by decide

theorem test_decode_alu :
    decode 0x6A7F#16 = .ok (.ldi 0xA#4 0x7F#8) ∧ decode 0x7A01#16 = .ok (.addi 0xA#4 0x01#8) ∧
    decode 0x8120#16 = .ok (.mov 0x1#4 0x2#4) ∧ decode 0x8121#16 = .ok (.or 0x1#4 0x2#4) ∧
    decode 0x8122#16 = .ok (.and 0x1#4 0x2#4) ∧ decode 0x8123#16 = .ok (.xor 0x1#4 0x2#4) ∧
    decode 0x8124#16 = .ok (.add 0x1#4 0x2#4) ∧ decode 0x8125#16 = .ok (.sub 0x1#4 0x2#4) ∧
    decode 0x8126#16 = .ok (.shr 0x1#4 0x2#4) ∧ decode 0x8127#16 = .ok (.subn 0x1#4 0x2#4) ∧
    decode 0x812E#16 = .ok (.shl 0x1#4 0x2#4) ∧ decode 0xC10F#16 = .ok (.rnd 0x1#4 0x0F#8) := by decide

theorem test_decode_index_and_display :
    decode 0xA123#16 = .ok (.ldx 0x123#12) ∧ decode 0xF11E#16 = .ok (.addx 0x1#4) ∧
    decode 0xF129#16 = .ok (.font 0x1#4) ∧ decode 0xF133#16 = .ok (.bcd 0x1#4) ∧
    decode 0xF355#16 = .ok (.stm 0x3#4) ∧ decode 0xF365#16 = .ok (.ldm 0x3#4) ∧
    decode 0x00E0#16 = .ok .cls ∧ decode 0xD125#16 = .ok (.drw 0x1#4 0x2#4 0x5#4) := by decide

theorem test_decode_keypad_and_timers :
    decode 0xE19E#16 = .ok (.skp 0x1#4) ∧ decode 0xE1A1#16 = .ok (.sknp 0x1#4) ∧
    decode 0xF107#16 = .ok (.gdt 0x1#4) ∧ decode 0xF50A#16 = .ok (.wkey 0x5#4) ∧
    decode 0xF115#16 = .ok (.sdt 0x1#4) ∧ decode 0xF118#16 = .ok (.sst 0x1#4) := by decide

/-- One word of each class of unknown opcodes, rejected under its class's name, and a sequence too short. -/
theorem test_decode_rejects :
    decode 0x0000#16 = .error .unknownClass0 ∧ decode 0x5121#16 = .error .unknownClass5 ∧
    decode 0x8128#16 = .error .unknownClass8 ∧ decode 0x912F#16 = .error .unknownClass9 ∧
    decode 0xE19F#16 = .error .unknownClassE ∧ decode 0xF1FF#16 = .error .unknownClassF ∧
    decodeBytes [0x60] = .error .truncated := by decide

theorem test_decode_bytes : decodeBytes [0x6A, 0x7F, 0x12] = .ok (.ldi 0xA#4 0x7F#8, [0x12]) := by decide

theorem test_table_word :
    decodeTableWord 16 0xD125 = some (.drw 0x1#4 0x2#4 0x5#4) ∧ decodeTableWord 16 0x00E0 = some .cls ∧
    decodeTableWord 16 0x5121 = none := by decide

theorem test_assembly :
    instrText (.drw 0x1#4 0xA#4 0xF#4) = "DRW V1, VA, 15" ∧ instrText (.se 0xA#4 0x10#8) = "SE VA, 0x10" ∧
    instrText (.jp 0x20C#12) = "JP 0x20C" ∧ instrText .ret = "RET" := by decide

/-- The head of the program P2: an instruction, a word and a byte at their addresses. -/
theorem test_assemble :
    assemble [.instr (.ldi 0x2#4 0xEA#8), .org 0x20E, .dw 0x1234#16, .db [0x05]] =
      [(0x200, 0x62), (0x201, 0xEA), (0x20E, 0x12), (0x20F, 0x34), (0x210, 0x05)] := by decide

/-! ### The step -/

/-- From reset with an opcode placed, the next step runs it. -/
theorem test_fetch_word :
    seen (step (State.reset.withFetchWord 16 0x6A7F)) (fun t => (t.readV 0xA#4, t.pc)) = some (0x7F, 0x0202#16) := by
  decide

/-- T-CALL-4: a fetch at 0xFFF takes its low byte from 0x000, and the address pushed is not reduced. -/
theorem test_fetch_wraps :
    seen (step ({ State.reset with pc := 0x0FFF#16 }.withFetchWord 16 0x2ABC))
      (fun t => (t.pc, t.stack, Memory.read t.mem 0)) = some (0x0ABC#16, [0x1001#16], 0xBC) := by decide

/-- T-SER-4: an unknown opcode is skipped, with its event. -/
theorem test_unknown_opcode :
    seen (step (start 0x5121#16 [])) (fun t => (t.pc, t.mode)) = some (0x0202#16, .running) ∧
    output .cycle (start 0x5121#16 []) = .cycled .executed (some ⟨0x0200#16, 0x5121#16⟩) := by decide

/-- The host's schedule goes first: a tick, then the opcode. -/
theorem test_schedule :
    seen (step { start 0x6A7F#16 [] with dt := 2, schedule := [.tick, .cycle] })
      (fun t => (t.dt, t.pc, t.schedule)) = some (1, 0x0200#16, [.cycle]) := by decide

/-! ### Control transfer -/

/-- T-RET-3: the newest entry, odd as it is. -/
theorem test_ret :
    seen (step { start 0x00EE#16 [] with stack := [0x0301#16, 0x0ABC#16] }) (fun t => (t.pc, t.stack)) =
      some (0x0301#16, [0x0ABC#16]) := by decide

/-- T-RET-2. -/
theorem test_ret_underflow :
    seen (step (start 0x00EE#16 [])) (fun t => (t.mode, t.faultRecord, t.pc)) =
      some (.faulted, some ⟨.stackUnderflow, 0x0200#16, 0x00EE#16⟩, 0x0200#16) ∧
    output .cycle (start 0x00EE#16 []) = .cycled .faulted none := by decide

/-- T-JP-1. -/
theorem test_jp : seen (step (start 0x1ABC#16 [])) (fun t => t.pc) = some 0x0ABC#16 := by decide

/-- T-CALL-2: the sixteenth entry is accepted. -/
theorem test_call_sixteenth :
    seen (step { start 0x2400#16 [] with stack := List.replicate 15 0x0202#16 }) (fun t => (t.pc, t.sp, t.stackEntry 15)) =
      some (0x0400#16, 16, some 0x0202#16) := by decide

/-- T-CALL-3, at 0x0200. -/
theorem test_call_overflow :
    seen (step { start 0x2400#16 [] with stack := List.replicate 16 0x0202#16 })
      (fun t => (t.mode, t.faultRecord, t.pc, t.sp)) =
      some (.faulted, some ⟨.stackOverflow, 0x0200#16, 0x2400#16⟩, 0x0200#16, 16) := by decide

/-- T-SE-1 and T-SE-2. -/
theorem test_se :
    seen (step (start 0x3A10#16 [(0xA#4, 0x10)])) (fun t => t.pc) = some 0x0204#16 ∧
    seen (step (start 0x3A11#16 [(0xA#4, 0x10)])) (fun t => t.pc) = some 0x0202#16 := by decide

/-- T-SNE-1 and T-SNE-2. -/
theorem test_sne :
    seen (step (start 0x4A10#16 [(0xA#4, 0x10)])) (fun t => t.pc) = some 0x0202#16 ∧
    seen (step (start 0x4A11#16 [(0xA#4, 0x10)])) (fun t => t.pc) = some 0x0204#16 := by decide

/-- T-SER-1 and T-SER-2. -/
theorem test_ser :
    seen (step (start 0x5120#16 [(0x1#4, 7), (0x2#4, 7)])) (fun t => t.pc) = some 0x0204#16 ∧
    seen (step (start 0x5120#16 [(0x1#4, 7), (0x2#4, 8)])) (fun t => t.pc) = some 0x0202#16 := by decide

/-- T-SNER-1 and T-SNER-2. -/
theorem test_sner :
    seen (step (start 0x9120#16 [(0x1#4, 7), (0x2#4, 8)])) (fun t => t.pc) = some 0x0204#16 ∧
    seen (step (start 0x9120#16 [(0x1#4, 7), (0x2#4, 7)])) (fun t => t.pc) = some 0x0202#16 := by decide

/-- T-JP0-2: not reduced to 12 bits. -/
theorem test_jp0 : seen (step (start 0xBFFF#16 [(0x0#4, 0xFF)])) (fun t => t.pc) = some 0x10FE#16 := by decide

/-! ### Load, arithmetic, random -/

/-- T-LDI-2: `VF` as a plain destination. -/
theorem test_ldi : seen (step (start 0x6F01#16 [(vf, 0x99)])) (fun t => (t.readV vf, t.pc)) = some (0x01, 0x0202#16) := by
  decide

/-- T-ADDI-1: no carry flag. -/
theorem test_addi :
    seen (step (start 0x7A01#16 [(0xA#4, 0xFF), (vf, 0x55)])) (fun t => (t.readV 0xA#4, t.readV vf)) =
      some (0x00, 0x55) := by decide

/-- T-MOV-1. -/
theorem test_mov :
    seen (step (start 0x8120#16 [(0x1#4, 0x01), (0x2#4, 0xAB)])) (fun t => (t.readV 0x1#4, t.readV 0x2#4)) =
      some (0xAB, 0xAB) := by decide

/-- T-OR-1. -/
theorem test_or :
    seen (step (start 0x8121#16 [(0x1#4, 0xF0), (0x2#4, 0x0F), (vf, 0x77)])) (fun t => (t.readV 0x1#4, t.readV vf)) =
      some (0xFF, 0x77) := by decide

/-- T-AND-1. -/
theorem test_and :
    seen (step (start 0x8122#16 [(0x1#4, 0xF0), (0x2#4, 0x3C), (vf, 0x77)])) (fun t => (t.readV 0x1#4, t.readV vf)) =
      some (0x30, 0x77) := by decide

/-- T-XOR-1. -/
theorem test_xor :
    seen (step (start 0x8123#16 [(0x1#4, 0xFF), (0x2#4, 0x0F), (vf, 0x77)])) (fun t => (t.readV 0x1#4, t.readV vf)) =
      some (0xF0, 0x77) := by decide

/-- T-ADD-1 and T-ADD-4. -/
theorem test_add :
    seen (step (start 0x8124#16 [(0x1#4, 0xC8), (0x2#4, 0x64)])) (fun t => (t.readV 0x1#4, t.readV vf)) =
      some (0x2C, 0x01) ∧
    seen (step (start 0x8124#16 [(0x1#4, 0xFF), (0x2#4, 0x00)])) (fun t => (t.readV 0x1#4, t.readV vf)) =
      some (0xFF, 0x00) := by decide

/-- T-ADD-5 and T-ADD-6: `X = F` and `Y = F`. -/
theorem test_add_vf :
    seen (step (start 0x8F14#16 [(vf, 0xF0), (0x1#4, 0x20)])) (fun t => t.readV vf) = some 0x10 ∧
    seen (step (start 0x81F4#16 [(vf, 0xF0), (0x1#4, 0x20)])) (fun t => (t.readV 0x1#4, t.readV vf)) =
      some (0x10, 0x01) := by decide

/-- T-SUB-2 and T-SUB-3: a borrow, and equality. -/
theorem test_sub :
    seen (step (start 0x8125#16 [(0x1#4, 0x03), (0x2#4, 0x0A), (vf, 1)])) (fun t => (t.readV 0x1#4, t.readV vf)) =
      some (0xF9, 0x00) ∧
    seen (step (start 0x8125#16 [(0x1#4, 0x07), (0x2#4, 0x07), (vf, 1)])) (fun t => (t.readV 0x1#4, t.readV vf)) =
      some (0x00, 0x00) := by decide

/-- T-SUB-4: `X = F`. -/
theorem test_sub_vf :
    seen (step (start 0x8F15#16 [(vf, 0x0A), (0x1#4, 0x03)])) (fun t => t.readV vf) = some 0x07 := by decide

/-- T-SHR-1: `VY` is ignored. -/
theorem test_shr :
    seen (step (start 0x8126#16 [(0x1#4, 0x05), (0x2#4, 0xFF)])) (fun t => (t.readV 0x1#4, t.readV vf, t.readV 0x2#4)) =
      some (0x02, 0x01, 0xFF) := by decide

/-- T-SUBN-1 and T-SUBN-2. -/
theorem test_subn :
    seen (step (start 0x8127#16 [(0x1#4, 0x03), (0x2#4, 0x0A)])) (fun t => (t.readV 0x1#4, t.readV vf)) =
      some (0x07, 0x01) ∧
    seen (step (start 0x8127#16 [(0x1#4, 0x0A), (0x2#4, 0x03), (vf, 1)])) (fun t => (t.readV 0x1#4, t.readV vf)) =
      some (0xF9, 0x00) := by decide

/-- T-SHL-1. -/
theorem test_shl :
    seen (step (start 0x812E#16 [(0x1#4, 0x81), (0x2#4, 0x00)])) (fun t => (t.readV 0x1#4, t.readV vf)) =
      some (0x02, 0x01) := by decide

/-- T-SHL-3: `X = F`, the shifted value remains. -/
theorem test_shl_vf : seen (step (start 0x8F2E#16 [(vf, 0xC0)])) (fun t => t.readV vf) = some 0x80 := by decide

/-- T-RND-2: NN = 0 forces 0, whatever the byte. -/
theorem test_rnd (t : State) (h : exec (.rnd 0x1#4 0x00#8) (start 0xC100#16 [(0x1#4, 0xEE)]) = .next t) :
    t.readV 0x1#4 = 0x00 := by
  cases h
  exact BitVec.and_zero

/-! ### Index register and memory -/

/-- T-LDX-1. -/
theorem test_ldx : seen (step (start 0xA123#16 [])) (fun t => t.i) = some 0x0123#16 := by decide

/-- T-ADDX-1 and T-ADDX-2. -/
theorem test_addx :
    seen (step { start 0xF11E#16 [(0x1#4, 0x01), (vf, 0x77)] with i := 0x0FFF#16 }) (fun t => (t.i, t.readV vf)) =
      some (0x1000#16, 0x77) ∧
    seen (step { start 0xF11E#16 [(0x1#4, 0x02)] with i := 0xFFFF#16 }) (fun t => t.i) = some 0x0001#16 := by decide

/-- T-FONT-1 and T-FONT-3. -/
theorem test_font :
    seen (step (start 0xF129#16 [(0x1#4, 0x0A)])) (fun t => t.i) = some 0x0032#16 ∧
    seen (step (start 0xF129#16 [(0x1#4, 0xFF)])) (fun t => t.i) = some 0x04FB#16 := by decide

/-- T-BCD-1. -/
theorem test_bcd :
    seen (step { start 0xF133#16 [(0x1#4, 157)] with i := 0x0400#16 })
      (fun t => (Memory.read t.mem 0x400, Memory.read t.mem 0x401, Memory.read t.mem 0x402)) = some (1, 5, 7) := by
  decide

/-- T-BCD-3: the store wraps into the font. -/
theorem test_bcd_wraps :
    seen (step { start 0xF133#16 [(0x1#4, 255)] with i := 0x0FFF#16 })
      (fun t => (Memory.read t.mem 0xFFF, Memory.read t.mem 0x000, Memory.read t.mem 0x001)) = some (2, 5, 5) := by
  decide

/-- T-STM-1. -/
theorem test_stm :
    seen (step { start 0xF355#16 [(0x0#4, 0x11), (0x1#4, 0x22), (0x2#4, 0x33), (0x3#4, 0x44), (0x4#4, 0x55)] with
        i := 0x0300#16 })
      (fun t => ((List.range 5).map fun k => Memory.read t.mem (0x300 + k), t.i)) =
      some ([0x11, 0x22, 0x33, 0x44, 0x00], 0x0300#16) := by decide

/-- T-LDM-1. -/
theorem test_ldm :
    seen (step { State.holding (start 0xF365#16 [(0x4#4, 0x99)]) 0x300 [0x11, 0x22, 0x33, 0x44, 0x55] with
        i := 0x0300#16 })
      (fun t => (t.readV 0x0#4, t.readV 0x3#4, t.readV 0x4#4, t.i)) = some (0x11, 0x44, 0x99, 0x0300#16) := by decide

/-- T-LDM-2: the second byte comes from the font. -/
theorem test_ldm_wraps :
    seen (step { State.holding (start 0xF165#16 []) 0xFFF [0x7E] with i := 0x0FFF#16 })
      (fun t => (t.readV 0x0#4, t.readV 0x1#4)) = some (0x7E, 0xF0) := by decide

/-! ### Display -/

/-- T-CLS-2: `DIRTY` is set although the buffer was clear; and a buffer with a pixel on is cleared. -/
theorem test_cls :
    seen (step (start 0x00E0#16 [])) (fun t => t.dirty) = some true ∧
    seen (step { start 0x00E0#16 [] with fb := State.reset.fb.set 7 0x0400000000000000#64 }) (fun t => t.fb[7]) =
      some 0 := by decide

/-- T-DRW-3: a sprite row wraps round the right edge. -/
theorem test_drw_wraps :
    seen (step { State.holding (start 0xD121#16 [(0x1#4, 62), (0x2#4, 5)]) 0x300 [0xFF] with i := 0x0300#16 })
      (fun t => (t.fb[5], t.readV vf, t.dirty)) = some (0xFC00000000000003#64, 0, true) := by decide

/-- T-DRW-7: a partial collision. -/
theorem test_drw_collides :
    seen (step { State.holding (start 0xD121#16 []) 0x300 [0xC0] with
        i := 0x0300#16, fb := State.reset.fb.set 0 0x6000000000000000#64 })
      (fun t => (t.fb[0], t.readV vf)) = some (0xA000000000000000#64, 1) := by decide

/-- The packed frame of a buffer with pixels (0, 0) and (9, 1) on. -/
theorem test_frame :
    let fb : FrameBuffer := (State.reset.fb.set 0 0x8000000000000000#64).set 1 0x0040000000000000#64
    fb.rasterByte 0 = 0x80 ∧ fb.rasterByte 9 = 0x40 ∧ fb.rasterPixel 0 = true ∧ fb.rasterPixel 73 = true ∧
      fb.rasterPixel 72 = false := by decide

/-! ### Keypad and timers -/

/-- T-SKP-1, T-SKP-2 and T-SKP-3. -/
theorem test_skp :
    seen (step { start 0xE19E#16 [(0x1#4, 0x15)] with keys := keysDown [5] }) (fun t => t.pc) = some 0x0204#16 ∧
    seen (step { start 0xE19E#16 [(0x1#4, 5)] with keys := keysDown [4] }) (fun t => t.pc) = some 0x0202#16 := by decide

/-- T-SKNP-2 and T-SKNP-3. -/
theorem test_sknp :
    seen (step (start 0xE1A1#16 [(0x1#4, 5)])) (fun t => t.pc) = some 0x0204#16 ∧
    seen (step { start 0xE1A1#16 [(0x1#4, 0xF5)] with keys := keysDown [5] }) (fun t => t.pc) = some 0x0202#16 := by
  decide

/-- T-WKEY-1, first part: a key already down is not looked at. -/
theorem test_wkey :
    seen (step { start 0xF50A#16 [(0x5#4, 0x77)] with keys := keysDown [9] }) (fun t => (t.mode, t.pc, t.readV 0x5#4)) =
      some (.awaitingKey 0x5#4, 0x0202#16, 0x77) := by decide

/-- T-GDT-1. -/
theorem test_gdt : seen (step { start 0xF107#16 [(0x1#4, 1)] with dt := 0x3C }) (fun t => (t.readV 0x1#4, t.dt)) =
    some (0x3C, 0x3C) := by decide

/-- T-SDT-1. -/
theorem test_sdt : seen (step (start 0xF115#16 [(0x1#4, 0x3C)])) (fun t => t.dt) = some 60 := by decide

/-- T-SST-1 and T-SST-2. -/
theorem test_sst :
    seen (step (start 0xF118#16 [(0x1#4, 0x02)])) (fun t => (t.st, t.toneOn)) = some (2, true) ∧
    seen (step { start 0xF118#16 [(0x1#4, 0x00)] with st := 5 }) (fun t => (t.st, t.toneOn)) = some (0, false) := by
  decide

/-! ### The host's operations -/

/-- T-WKEY-2: the lowest key wins. -/
theorem test_resolve :
    seen (operate .resolve (waiting [3, 9])) (fun t => (t.readV 0x5#4, t.mode)) = some (3, .running) ∧
    output .resolve (waiting [3, 9]) = .resolved (.resolved 3) ∧ output .resolve (waiting []) = .resolved .stillWaiting ∧
    output .resolve State.reset = .resolved .notWaiting := by decide

/-- T-TICK-1: the timers stop at 0, and the edge is the call that takes `ST` there. -/
theorem test_tick :
    seen (operate .tick { State.reset with dt := 0, st := 1 }) (fun t => (t.dt, t.st)) = some (0, 0) ∧
    output .tick { State.reset with st := 1 } = .ticked true ∧ output .tick { State.reset with st := 2 } = .ticked false ∧
    output .tick State.reset = .ticked false := by decide

/-- Bytes go to 0x200 upwards. -/
theorem test_load :
    seen (operate (.load [0x60, 0x05]) State.reset) (fun t => (Memory.read t.mem 0x200, Memory.read t.mem 0x201, t.pc)) =
      some (0x60, 0x05, 0x0200#16) := by decide

/-- T-LOAD-2: 3585 bytes are rejected. -/
theorem test_load_rejects : output (.load (List.replicate 3585 2)) State.reset = .loaded .rejected := by
  simp only [output, loadResult, loadAccepted, Program.fits, List.length_replicate]; decide

/-- T-FLT-2 and T-FLT-3: a halted core is left by `RESET` alone. -/
theorem test_halted :
    seen (operate .tick { halted with st := 1 }) (fun t => t.st) = some 1 ∧
    output .cycle halted = .cycled .halted none ∧ output (.load [0x01]) halted = .loaded .rejected ∧
    seen (operate .reset halted) (fun t => (t.mode, t.pc, t.faultRecord)) = some (.running, 0x0200#16, none) := by decide

/-- T-RST-1: `KEYS` survive a reset. -/
theorem test_reset_keeps_keys :
    seen (operate .reset { State.reset with keys := keysDown [7] }) (fun t => t.key 0x7#4) = some true := by decide

theorem test_dirty_ack : seen (operate .dirtyAck { State.reset with dirty := true }) (fun t => t.dirty) = some false := by
  decide

/-! ### Witnesses: the hypotheses of each statement can be met -/

theorem witness_encodingADecodedWord : decode 0x81F6#16 = .ok (.shr 0x1#4 vf) ∧ encode (.shr 0x1#4 vf) = 0x81F6#16 := by
  decide

/-- Words at the edges of the six clauses of UnknownOpcodesByClass, and their known neighbours. -/
theorem witness_unknownOpcodesByClass :
    [0x00DF#16, 0x00E1#16, 0x00ED#16, 0x00EF#16, 0x5121#16, 0x8128#16, 0x812D#16, 0x812F#16, 0x9121#16, 0xE19D#16,
      0xE1A2#16, 0xF106#16, 0xF166#16].all (fun w => !Opcode.wellFormed w) = true ∧
    [0x00E0#16, 0x00EE#16, 0x5120#16, 0x8127#16, 0x812E#16, 0x9120#16, 0xE19E#16, 0xE1A1#16, 0xF107#16, 0xF165#16].all
      (fun w => Opcode.wellFormed w) = true := by decide

theorem witness_decodeIsTheOpcodeMap :
    (∃ r ∈ opcodeTable, 0x8126#16 &&& r.mask = r.pattern) ∧ ∀ r ∈ opcodeTable, 0x8128#16 &&& r.mask ≠ r.pattern := by
  decide

theorem witness_runs : (start 0x6A7F#16 []).runs (.ldi 0xA#4 0x7F#8) ∧ (start 0x6A7F#16 []).schedule = [] := by
  refine ⟨⟨rfl, rfl, ?_⟩, rfl⟩; decide

theorem witness_fetch :
    effAddr Params.hardware 4095 = some 4095 ∧ effAddr Params.hardware 4096 = some 0 ∧
    effAddr faultParams 4094 = some 4094 ∧ effAddr faultParams 4095 = some 4095 ∧
    { State.reset with i := 0x0200#16 }.i = { State.reset with i := 0x0200#16 }.pc := by decide

theorem witness_unknownOpcode :
    (start 0x5121#16 []).nextOp = .cycle ∧ (start 0x5121#16 []).mode = .running ∧
    decode (start 0x5121#16 []).opcodeAtPc = .error .unknownClass5 ∧
    cycleEvent (start 0x5121#16 []) = some ⟨0x0200#16, 0x5121#16⟩ := by decide

theorem witness_outsideRunning : (waiting []).mode = .awaitingKey 0x5#4 ∧ halted.mode = .faulted := by decide

theorem witness_schedule :
    State.reset.schedule = [] ∧ { State.reset with schedule := [Op.tick, .cycle] }.schedule = .tick :: [.cycle] := by decide

/-- A host that ticks before every cycle for ever: what stands after its first two operations. -/
theorem test_run :
    seen (run (fun n => if n % 2 = 0 then .tick else .cycle) { start 0x6A7F#16 [] with dt := 2 } 2)
      (fun t => (t.dt, t.readV 0xA#4, t.pc)) = some (1, 0x7F, 0x0202#16) := by decide

theorem witness_selfJump : (0x200#12).toNat = State.reset.pc.toNat := by decide

/-- The stack empty, with one entry, one short of full, and full. -/
theorem witness_stack :
    State.reset.sp = 0 ∧ 0 < { State.reset with stack := [0x0202#16] }.sp ∧
    { State.reset with stack := List.replicate 15 0x0202#16 }.sp < 16 ∧
    16 ≤ { State.reset with stack := List.replicate 16 0x0202#16 }.sp := by decide

theorem witness_returnUndoesCall :
    State.reset.sp < 16 ∧ ∃ t, exec (.call 0x300#12) State.reset = .next t := ⟨by decide, _, rfl⟩

/-- FONT at the ends of its digit range. -/
theorem witness_fontDigits :
    ((start 0xF129#16 []).readV 0x1#4).toNat < 16 ∧ ((start 0xF129#16 [(0x1#4, 15)]).readV 0x1#4).toNat < 16 ∧ ¬((start 0xF129#16 [(0x1#4, 16)]).readV 0x1#4).toNat < 16 := by
  decide

/-- `OOB_MODE = FAULT` with operands at the first address that faults, and a fetch there. -/
theorem witness_faultMode :
    faultParams.oobMode = .fault ∧ faultParams.faultPc = .opcodeAddr ∧
    { State.reset with i := 4094#16 }.i.toNat + 2 ≥ 4096 ∧
    { State.reset with i := 4095#16 }.i.toNat + (0x1#4).toNat ≥ 4096 ∧
    { State.reset with i := 4095#16 }.i.toNat + (0x2#4).toNat - 1 ≥ 4096 ∧
    { State.reset with i := 4095#16 }.i.toNat + (0x1#4).toNat - 1 < 4096 ∧
    State.reset.mode = .running ∧ { State.reset with pc := 4095#16 }.pc.toNat + 1 ≥ 4096 ∧
    ({ State.reset with pc := 4094#16 }.placeOpcode 0x6A7F#16).pc.toNat + 1 < 4096 ∧
    decode ({ State.reset with pc := 4094#16 }.placeOpcode 0x6A7F#16).opcodeAtPc = .ok (.ldi 0xA#4 0x7F#8) := by decide

/-- R203: under `OOB_MODE = FAULT` a fetch at 0x0FFF faults on its second byte, with opcode 0 in the record. -/
theorem test_fetch_fault :
    seen (cycleWith faultParams exec { State.reset with pc := 0x0FFF#16 }) (fun t => (t.mode, t.faultRecord, t.pc)) =
      some (.faulted, some ⟨.memoryFault, 0x0FFF#16, 0x0000#16⟩, 0x0FFF#16) := by decide

theorem witness_loadUndoesStore :
    ∃ t, exec (.stm 0x3#4) State.reset = .next t ∧ t.mem = t.mem ∧ t.i = State.reset.i := ⟨_, rfl, rfl, by decide⟩

/-- T-STM-4: STM stores 0x1200 where the next cycle fetches. -/
theorem witness_storedCode :
    let s := { start 0xF155#16 [(0x0#4, 0x12), (0x1#4, 0x00)] with i := 0x0202#16 }
    (∃ t, exec (.stm 0x1#4) s = .next t) ∧ (0x0#4).toNat + 1 = (0x1#4).toNat ∧ (0x1#4).toNat ≤ (0x1#4).toNat ∧
      (s.pc + 2).toNat % 4096 = s.operandAddr (0x0#4).toNat := by
  refine ⟨⟨_, rfl⟩, ?_⟩; decide

/-- At (62, 31) a sprite of two rows covers (62, 31) and, wrapped at both edges, (1, 0); it does not cover (61, 31). -/
theorem witness_spriteCovers :
    let s := { State.holding (start 0xD122#16 [(0x1#4, 62), (0x2#4, 31)]) 0x300 [0x80, 0x10] with i := 0x0300#16 }
    s.spriteCovers 0x1#4 0x2#4 0x2#4 62 31 ∧ s.spriteCovers 0x1#4 0x2#4 0x2#4 1 0 ∧
      ¬s.spriteCovers 0x1#4 0x2#4 0x2#4 61 31 := by
  refine ⟨⟨0, by decide, 0, by decide, by decide⟩, ⟨1, by decide, 3, by decide, by decide⟩, ?_⟩
  unfold State.spriteCovers
  decide

/-- A pixel of the sprite over a pixel that is on, and a buffer in which none is. -/
theorem witness_collision :
    let s := { State.holding (start 0xD121#16 []) 0x300 [0xC0] with
      i := 0x0300#16, fb := State.reset.fb.set 0 0x6000000000000000#64 }
    (s.spriteCovers 0x1#4 0x2#4 0x1#4 1 0 ∧ s.fb.pixel 1 0 = true) ∧
      ∀ px py, s.spriteCovers 0x1#4 0x2#4 0x1#4 px py → { s with fb := FrameBuffer.clear }.fb.pixel px py = false := by
  refine ⟨⟨⟨0, by decide, 1, by decide, by decide⟩, by decide⟩, fun px py _ => ?_⟩
  simp [FrameBuffer.pixel, FrameBuffer.clear]

theorem witness_drawingTwice :
    (0x1#4 ≠ vf ∧ 0x2#4 ≠ vf) ∧ ∃ t, exec (.drw 0x1#4 0x2#4 0x5#4) State.reset = .next t := ⟨by decide, _, rfl⟩

/-- The three clauses of RESOLVE: no key down, a lowest key down, no wait. -/
theorem witness_resolve :
    (∀ k : Nibble, (waiting []).key k = false) ∧
    (waiting [3, 9]).key 0x3#4 = true ∧ (∀ j : Nibble, j.toNat < (0x3#4).toNat → (waiting [3, 9]).key j = false) ∧
    ∀ x, State.reset.mode ≠ .awaitingKey x := by
  refine ⟨?_, ?_, ?_, ?_⟩ <;> decide

theorem witness_sdtRuns : (start 0xF115#16 [(0x1#4, 0x3C)]).runs (.sdt 0x1#4) := by refine ⟨rfl, rfl, ?_⟩; decide

/-- A program of the greatest length, one byte more, and an address below, in and past the bytes loaded. -/
theorem witness_load :
    State.reset.mode ≠ .faulted ∧ (List.replicate 3584 (1 : Byte)).length ≤ 3584 ∧
    ¬(List.replicate 3585 (1 : Byte)).length ≤ 3584 ∧ ¬halted.mode ≠ .faulted ∧ (0x1FF : Nat) < 0x200 ∧
    0x200 + [(1 : Byte)].length ≤ 0x201 := by
  simp only [List.length_replicate]; decide

theorem witness_frozen : halted.mode = .faulted ∧ Op.tick ≠ .reset ∧ ∀ k, Op.tick ≠ .setKeys k := by
  refine ⟨rfl, by decide, fun k h => by cases h⟩

/-- The frames: a register ADD leaves, an address BCD leaves, and an instruction of none of the lists. -/
theorem witness_frames :
    (∃ t, exec (.add 0x1#4 0x2#4) State.reset = .next t) ∧ (Instr.add 0x1#4 0x2#4).mayWriteV 0x3#4 = false ∧
    (∃ t, exec (.bcd 0x1#4) State.reset = .next t) ∧
    State.reset.sp < 16 ∧ (Instr.call 0x300#12).mnemonic = "CALL" ∧
    (∀ k < (Instr.bcd 0x1#4).storedBytes, 3 ≠ State.reset.operandAddr k) ∧
    (Instr.ldi 0x1#4 0x00#8).mnemonic ∉ ["LDX", "ADDX", "FONT", "CALL", "RET", "SDT", "SST", "CLS", "DRW", "WKEY", "RND"] := by
  refine ⟨⟨_, rfl⟩, by decide, ⟨_, rfl⟩, by decide, by decide, by decide, by decide⟩

/-- Both ways into `FAULTED`, from a core that is not. -/
theorem witness_stackFaults :
    (start 0x00EE#16 []).mode ≠ .faulted ∧ seen (step (start 0x00EE#16 [])) (fun t => t.mode) = some .faulted ∧
    seen (step { start 0x2400#16 [] with stack := List.replicate 16 0x0202#16 }) (fun t => t.mode) = some .faulted := by
  decide

/-- The key wait entered and left. -/
theorem witness_keyWait :
    (start 0xF50A#16 []).mode ≠ .awaitingKey 0x5#4 ∧
    seen (step (start 0xF50A#16 [])) (fun t => t.mode) = some (.awaitingKey 0x5#4) ∧
    (waiting [9]).mode = .awaitingKey 0x5#4 ∧
    seen (step { waiting [9] with schedule := [.resolve] }) (fun t => t.mode) = some .running := by decide

theorem witness_evenJumps :
    (∃ t, step (start 0x1300#16 []) = .next t) ∧ (start 0x1300#16 []).pc.toNat % 2 = 0 ∧
    (∀ a ∈ (start 0x1300#16 []).stack, a.toNat % 2 = 0) ∧
    (∀ i, (start 0x1300#16 []).runs i → i.targetEven = true) ∧
    ∀ nnn, (start 0x1300#16 []).runs (.jp0 nnn) → (nnn.toNat + ((start 0x1300#16 []).readV 0x0#4).toNat) % 2 = 0 := by
  have e : decode (start 0x1300#16 []).opcodeAtPc = .ok (.jp 0x300#12) := by decide
  have e' : (start 0x1300#16 []).stack = [] := by decide
  refine ⟨⟨_, rfl⟩, by decide, by rw [e']; exact List.forall_mem_nil _, fun i h => ?_, fun nnn h => ?_⟩
  · have := h.2.2; rw [e] at this; cases this; decide
  · have := h.2.2; rw [e] at this; cases this

theorem witness_invariant : (start 0x00EE#16 []).Inv ∧ halted.Inv ∧ ∃ t, step (start 0x00EE#16 []) = .next t := by
  refine ⟨⟨by decide, by decide, by decide⟩, ⟨by decide, by decide, by decide⟩, _, rfl⟩

end Sys2Proof.Tests
end

section
/-! PROOFS. The order of bytes in memory (20_memory.md R51): a word made of two bytes, the opcode at `PC` under any
parameters, and FX65's reading of the same two bytes. -/

namespace Sys2Proof

/-! ### A word of two bytes -/

@[simp] theorem highByte_wordOfBytes (hi lo : Byte) : highByte (wordOfBytes hi lo) = hi :=
  BitVec.extractLsb'_append_eq_left

@[simp] theorem lowByte_wordOfBytes (hi lo : Byte) : lowByte (wordOfBytes hi lo) = lo :=
  BitVec.extractLsb'_append_eq_right

/-- The first byte counts 256 times: it is the most significant one. -/
theorem wordOfBytes_toNat (hi lo : Byte) : (wordOfBytes hi lo).toNat = hi.toNat * 256 + lo.toNat := by
  rw [wordOfBytes, BitVec.toNat_append, ← Nat.shiftLeft_add_eq_or_of_lt lo.isLt, Nat.shiftLeft_eq]

/-- The high byte of an opcode is its class and `X` (R73). -/
theorem highByte_eq_fields (w : Word) : highByte w = fieldClass w ++ fieldX w :=
  (BitVec.extractLsb'_append_extractLsb'_eq_extractLsb' (start₁ := 8) (len₁ := 4) rfl).symm

/-- The low byte of an opcode is its `Y` and `N` (R73). -/
theorem lowByte_eq_fields (w : Word) : lowByte w = fieldY w ++ fieldN w :=
  (BitVec.extractLsb'_append_extractLsb'_eq_extractLsb' (start₁ := 0) (len₁ := 4) rfl).symm

/-- The two bytes are the digits of their word: the first is class and `X`, the second `Y` and `N`. -/
theorem fields_of_wordOfBytes (hi lo : Byte) :
    hi = fieldClass (wordOfBytes hi lo) ++ fieldX (wordOfBytes hi lo) ∧
      lo = fieldY (wordOfBytes hi lo) ++ fieldN (wordOfBytes hi lo) := by
  simp only [← highByte_eq_fields, ← lowByte_eq_fields, highByte_wordOfBytes, lowByte_wordOfBytes, and_self]

end Sys2Proof

namespace Sys2Proof.Machine

/-! ### The opcode at `PC` -/

/-- Where neither address faults, the fetch is the word of the two bytes there, whatever the parameters. -/
theorem fetchWord_of_effAddr {p : Params} {s : State} {a b : Nat} (ha : effAddr p s.pc.toNat = some a)
    (hb : effAddr p (s.pc.toNat + 1) = some b) :
    fetchWord p s = some (wordOfBytes (Memory.read s.mem a) (Memory.read s.mem b)) := by
  simp only [fetchWord, ha, hb]

/-- With `I` at `PC`, the opcode is the word of operand bytes 0 and 1. -/
theorem fetchWord_of_i_eq_pc {s : State} (h : s.i = s.pc) : fetchWord Params.hardware s =
    some (wordOfBytes (Memory.read s.mem (s.operandAddr 0)) (Memory.read s.mem (s.operandAddr 1))) := by
  rw [fetchWord_hardware, ← h]
  rfl

/-! ### FX65 -/

/-- On this hardware FX65 completes: past the opcode, with the run of `X + 1` operand bytes in the registers from `V0`
on. -/
theorem exec_ldm (x : Nibble) (s : State) : exec (.ldm x) s =
    .next (s.advance.fillRegs ((List.range (x.toNat + 1)).map fun k => Memory.read s.mem (s.operandAddr k))) := by
  simp only [exec, execLdm, ldmWith, readSpan_hardware, State.operandAddr, memSize_eq]

/-- Register `r` of a run of `n` operand bytes loaded from `V0` on holds operand byte `r`. -/
theorem readV_fillRegs_operands {n : Nat} {r : Nibble} (hr : r.toNat < n) (s t : State) :
    (t.fillRegs ((List.range n).map fun k => Memory.read s.mem (s.operandAddr k))).readV r =
      Memory.read s.mem (s.operandAddr r.toNat) := by
  simp [readV_fillRegs, hr]

/-! ### The obligation -/

/-- Settles O7: the fetch is the word of its two bytes, first byte high, and FX65 loads operand byte `r`, which is byte
`r` of the opcode when `I` is at `PC`, into `V[r]`. -/
theorem fetchIsBigEndian : Obligations.FetchIsBigEndian := by
  unfold Obligations.FetchIsBigEndian
  refine ⟨fun p s a b ha hb => ?_, fun s h => ⟨_, exec_ldm 0x1#4 s, ?_⟩⟩
  · exact ⟨_, fetchWord_of_effAddr ha hb, wordOfBytes_toNat _ _, fields_of_wordOfBytes _ _⟩
  · rw [fetchWord_of_i_eq_pc h, readV_fillRegs_operands (by decide), readV_fillRegs_operands (by decide)]
    rfl

end Sys2Proof.Machine
end

section
/-! PROOFS. Decoding is the opcode map (30_encoding.md R71, R76): a row's match as a condition on the fields its mask
keeps, each row's words decode to its instruction, and what no row matches is unknown. -/

namespace Sys2Proof

/-! ### A row's match, as a condition on fields -/

/-- A mask with all of a field's bits leaves the field as it is. -/
theorem extractLsb'_and_of_allOnes {start len : Nat} {w m : Word} (hm : m.extractLsb' start len = BitVec.allOnes len) :
    (w &&& m).extractLsb' start len = w.extractLsb' start len := by
  rw [BitVec.extractLsb'_and, hm, BitVec.and_allOnes]

theorem maskAll_eq_iff {w p : Word} : w &&& 0xFFFF#16 = p ↔ w = p := by
  rw [show w &&& 0xFFFF#16 = w from BitVec.and_allOnes]

theorem maskClass_eq_iff {w p : Word} (hp : p &&& 0xF000#16 = p) :
    w &&& 0xF000#16 = p ↔ fieldClass w = p.extractLsb' 12 4 := by
  constructor
  · rintro rfl
    exact (extractLsb'_and_of_allOnes rfl).symm
  · intro hc
    rw [maskClass, hc, ← fieldClass, ← maskClass, hp]

theorem maskXY_eq_iff {w p : Word} (hp : p &&& 0xF00F#16 = p) :
    w &&& 0xF00F#16 = p ↔ fieldClass w = p.extractLsb' 12 4 ∧ fieldN w = p.extractLsb' 0 4 := by
  constructor
  · rintro rfl
    exact ⟨(extractLsb'_and_of_allOnes rfl).symm, (extractLsb'_and_of_allOnes rfl).symm⟩
  · rintro ⟨hc, hn⟩
    rw [maskXY, hc, hn, ← fieldClass, ← fieldN, ← maskXY, hp]

theorem maskX_eq_iff {w p : Word} (hp : p &&& 0xF0FF#16 = p) :
    w &&& 0xF0FF#16 = p ↔ fieldClass w = p.extractLsb' 12 4 ∧ fieldNN w = p.extractLsb' 0 8 := by
  constructor
  · rintro rfl
    exact ⟨(extractLsb'_and_of_allOnes rfl).symm, (extractLsb'_and_of_allOnes rfl).symm⟩
  · rintro ⟨hc, hnn⟩
    rw [maskX, hc, hnn, ← fieldClass, ← fieldNN, ← maskX, hp]

/-! ### Rows and decoding -/

/-- A row of the map is known by its mnemonic. -/
theorem row_eq_of_mnemonic_eq {r r' : OpcodeRow} (hr : r ∈ opcodeTable) (hr' : r' ∈ opcodeTable)
    (h : r.mnemonic = r'.mnemonic) : r = r' :=
  List.inj_on_of_nodup_map opcodeTable_length.2 hr hr' h

/-- A word that matches a row decodes to that row's instruction: outside class 0 the row fixes the fields the decoder
looks at. -/
theorem exists_decode_eq_ok_of_row (w : Word) :
    ∀ r ∈ opcodeTable, w &&& r.mask = r.pattern → ∃ i, decode w = .ok i ∧ i.mnemonic = r.mnemonic := by
  simp only [opcodeTable, List.forall_mem_cons, List.not_mem_nil, false_imp_iff, implies_true, and_true, maskAll_eq_iff,
    maskClass_eq_iff, maskXY_eq_iff, maskX_eq_iff, BitVec.reduceAnd, BitVec.reduceExtractLsb', and_imp]
  and_intros
  · rintro rfl
    exact ⟨.cls, rfl, rfl⟩
  · rintro rfl
    exact ⟨.ret, rfl, rfl⟩
  all_goals
    intros
    simp [decode, decodeClass8, decodeClassE, decodeClassF, Instr.mnemonic, *]

/-- The class the decoder does not test for is what its tests leave. -/
theorem nibble_eq_F_of_not_mem : ∀ c : Nibble,
    c ∉ [0x0#4, 0x1#4, 0x2#4, 0x3#4, 0x4#4, 0x5#4, 0x6#4, 0x7#4, 0x8#4, 0x9#4, 0xA#4, 0xB#4, 0xC#4, 0xD#4, 0xE#4] →
      c = 0xF#4 := by decide

/-- A word that matches no row is unknown: the classes with one row each are excluded, and in each of the others every
selector the decoder tests for is. -/
theorem exists_decode_eq_error_of_no_row {w : Word} (h : ∀ r ∈ opcodeTable, w &&& r.mask ≠ r.pattern) :
    ∃ e, decode w = .error e := by
  simp only [opcodeTable, List.forall_mem_cons, List.not_mem_nil, false_imp_iff, implies_true, and_true, maskAll_eq_iff,
    maskClass_eq_iff, maskXY_eq_iff, maskX_eq_iff, BitVec.reduceAnd, BitVec.reduceExtractLsb', ne_eq] at h
  simp only [decode, h, if_false]
  split_ifs with c0 c5 n5 c8 c9 n9 cE
  · simp [decodeClass0, h]
  · simp [c5, n5] at h
  · exact ⟨_, rfl⟩
  · simp only [c8, true_and] at h
    simp [decodeClass8, h]
  · simp [c9, n9] at h
  · exact ⟨_, rfl⟩
  · simp only [cE, true_and] at h
    simp [decodeClassE, h]
  · have cF : fieldClass w = 0xF#4 := nibble_eq_F_of_not_mem _ (by simp [h, c0, c5, c8, c9, cE])
    simp only [cF, true_and] at h
    simp [decodeClassF, h]

/-- A word that decodes matches the row of what it decodes to. -/
theorem exists_row_of_decode_eq_ok {w : Word} {i : Instr} (h : decode w = .ok i) :
    ∃ r ∈ opcodeTable, w &&& r.mask = r.pattern ∧ r.mnemonic = i.mnemonic := by
  obtain ⟨r, hr, hm⟩ : ∃ r ∈ opcodeTable, w &&& r.mask = r.pattern := by
    by_contra hno
    obtain ⟨e, he⟩ := exists_decode_eq_error_of_no_row fun r hr hm => hno ⟨r, hr, hm⟩
    cases h.symm.trans he
  obtain ⟨j, hj, hmn⟩ := exists_decode_eq_ok_of_row w r hr hm
  cases h.symm.trans hj
  exact ⟨r, hr, hm, hmn.symm⟩

/-! ### The obligation -/

/-- Settles O3: each row's words decode to its instruction, every decoded word has a row, and a row is known by its
mnemonic. -/
theorem decodeIsTheOpcodeMap : Obligations.DecodeIsTheOpcodeMap := by
  unfold Obligations.DecodeIsTheOpcodeMap
  refine fun w => ⟨fun r hr => ⟨exists_decode_eq_ok_of_row w r hr, ?_⟩, fun r hr r' hr' hm hm' => ?_,
    exists_decode_eq_error_of_no_row, ?_⟩
  · rintro ⟨i, hi, hmn⟩
    obtain ⟨r', hr', hm', hmn'⟩ := exists_row_of_decode_eq_ok hi
    rwa [← row_eq_of_mnemonic_eq hr' hr (hmn'.trans hmn)]
  · obtain ⟨i, hi, hmn⟩ := exists_decode_eq_ok_of_row w r hr hm
    obtain ⟨j, hj, hmn'⟩ := exists_decode_eq_ok_of_row w r' hr' hm'
    cases hi.symm.trans hj
    exact row_eq_of_mnemonic_eq hr hr' (hmn.symm.trans hmn')
  · rintro ⟨e, he⟩ r hr hm
    obtain ⟨i, hi, -⟩ := exists_decode_eq_ok_of_row w r hr hm
    cases he.symm.trans hi

end Sys2Proof
end

section
/-! PROOFS. Control transfer (40_control_flow.md section 1) and the skips on an immediate (section 2): the opcodes with
an address or a byte, the entries of the call stack by number, what JP, CALL, RET, SE and SNE do, and the statements
about them. -/

namespace Sys2Proof

/-! ### Decoding -/

theorem decode_jp (nnn : Addr) : decode (0x1#4 ++ nnn) = .ok (.jp nnn) := by
  simp [decode, fieldClass_nnn, fieldNNN_nnn]

theorem decode_call (nnn : Addr) : decode (0x2#4 ++ nnn) = .ok (.call nnn) := by
  simp [decode, fieldClass_nnn, fieldNNN_nnn]

theorem decode_se (x : Nibble) (nn : Byte) : decode (0x3#4 ++ x ++ nn) = .ok (.se x nn) := by
  simp [decode, fieldClass_xnn, fieldX_xnn, fieldNN_xnn]

theorem decode_sne (x : Nibble) (nn : Byte) : decode (0x4#4 ++ x ++ nn) = .ok (.sne x nn) := by
  simp [decode, fieldClass_xnn, fieldX_xnn, fieldNN_xnn]

end Sys2Proof

namespace Sys2Proof.Machine

/-! ### Jump targets -/

/-- A target is `NNN` as it stands: widening it to `PC`'s width keeps its value. -/
theorem addr_setWidth_toNat (nnn : Addr) : (nnn.setWidth 16).toNat = nnn.toNat :=
  BitVec.toNat_setWidth_of_le (by decide)

theorem jump_self (s : State) : s.jump s.pc = s := rfl

/-! ### Entries of the call stack by number (R28) -/

theorem sp_of_cons {s : State} {a : Word} {rest : List Word} (h : s.stack = a :: rest) : s.sp = rest.length + 1 := by
  rw [State.sp, h, List.length_cons]

/-- The newest entry has the highest number. -/
theorem stackEntry_newest {s : State} {a : Word} {rest : List Word} (h : s.stack = a :: rest) :
    s.stackEntry rest.length = some a := by
  rw [State.stackEntry, h, List.reverse_cons, ← List.length_reverse, List.getElem?_concat_length]

/-- Where one stack is the other with one more entry on it, the older entries agree. -/
theorem stackEntry_of_cons {s t : State} {a : Word} (h : t.stack = a :: s.stack) {k : Nat} (hk : k < s.sp) :
    t.stackEntry k = s.stackEntry k := by
  rw [State.stackEntry, h, reverse_cons_getElem? a s.stack hk, State.stackEntry]

/-! ### The instructions -/

/-- On this hardware a fatal fault changes the mode and the fault record only (R208). -/
theorem raise_hardware (cause : FaultCause) (op : Word) (s : State) : s.raise Params.hardware cause op =
    { s with mode := .faulted, faultRecord := some ⟨cause, s.pc, op⟩ } := rfl

theorem exec_jp (nnn : Addr) (s : State) : exec (.jp nnn) s = .next (s.jump (nnn.setWidth 16)) := rfl

theorem exec_call_of_room (nnn : Addr) {s : State} (h : s.sp < 16) : exec (.call nnn) s =
    .next { s with pc := nnn.setWidth 16, stack := (s.pc + 2) :: s.stack } := by
  simp only [exec, execCall, push_of_room h]
  rfl

theorem exec_call_of_full (nnn : Addr) {s : State} (h : 16 ≤ s.sp) : exec (.call nnn) s =
    .next { s with mode := .faulted, faultRecord := some ⟨.stackOverflow, s.pc, 0x2#4 ++ nnn⟩ } := by
  simp only [exec, execCall, push_of_full h, raise_hardware, encode]

theorem exec_ret_of_cons {s : State} {a : Word} {rest : List Word} (h : s.stack = a :: rest) :
    exec .ret s = .next { s with pc := a, stack := rest } := by
  simp only [exec, execRet, h, pop]
  rfl

theorem exec_ret_of_nil {s : State} (h : s.stack = []) : exec .ret s =
    .next { s with mode := .faulted, faultRecord := some ⟨.stackUnderflow, s.pc, 0x00EE#16⟩ } := by
  simp only [exec, execRet, h, pop, raise_hardware, encode]

theorem exec_se (x : Nibble) (nn : Byte) (s : State) : exec (.se x nn) s = .next (s.skipIf (s.readV x == nn)) := rfl

theorem exec_sne (x : Nibble) (nn : Byte) (s : State) : exec (.sne x nn) s = .next (s.skipIf (s.readV x != nn)) := rfl

/-! ### Skips that compare two bytes (R103) -/

theorem skipIf_beq_pc_toNat (s : State) (a b : Byte) :
    (s.skipIf (a == b)).pc.toNat = (s.pc.toNat + if a.toNat = b.toNat then 4 else 2) % 65536 := by
  simp only [skipIf_pc_toNat, beq_iff_eq, BitVec.toNat_inj]

theorem skipIf_bne_pc_toNat (s : State) (a b : Byte) :
    (s.skipIf (a != b)).pc.toNat = (s.pc.toNat + if a.toNat = b.toNat then 2 else 4) % 65536 := by
  simp only [skipIf_pc_toNat, bne_iff_ne, ite_not, BitVec.toNat_inj, ne_eq]

/-! ### The obligations -/

/-- Settles O12: with room the new stack is the old one with the address after the call on it, so the entries below it
agree; without room the call only faults. -/
theorem callPushesTheAddressAfterIt : Obligations.CallPushesTheAddressAfterIt := by
  unfold Obligations.CallPushesTheAddressAfterIt
  refine fun nnn s => ⟨decode_call nnn, ?_⟩
  by_cases h : s.sp < 16
  · refine ⟨_, exec_call_of_room nnn h, ?_⟩
    rw [if_pos h]
    exact ⟨addr_setWidth_toNat nnn, sp_of_cons rfl, stackEntry_newest rfl, fun _ => stackEntry_of_cons rfl, rfl⟩
  · refine ⟨_, exec_call_of_full nnn (Nat.le_of_not_lt h), ?_⟩
    rw [if_neg h]
    exact ⟨rfl, rfl⟩

/-- Settles O13, by cases on the stack: its newest entry becomes `PC` and the rest stays, or there is none and the return
only faults. -/
theorem retPopsThePc : Obligations.RetPopsThePc := by
  unfold Obligations.RetPopsThePc
  refine fun s => ⟨rfl, ?_⟩
  cases hs : s.stack with
  | nil =>
    refine ⟨_, exec_ret_of_nil hs, ?_⟩
    rw [if_neg (by simp [State.sp, hs])]
    exact ⟨rfl, by rw [hs]⟩
  | cons a rest =>
    refine ⟨_, exec_ret_of_cons hs, ?_⟩
    rw [sp_of_cons hs, if_pos rest.length.succ_pos]
    exact ⟨stackEntry_newest hs, rfl, fun _ hk => (stackEntry_of_cons hs hk).symm, rfl⟩

/-- Settles O16: both are the skip template, on equality and on its negation. -/
theorem skipsOnAnImmediate : Obligations.SkipsOnAnImmediate := by
  unfold Obligations.SkipsOnAnImmediate
  exact fun x nn s => ⟨decode_se x nn, decode_sne x nn,
    ⟨_, exec_se x nn s, rfl, skipIf_beq_pc_toNat s (s.readV x) nn⟩,
    ⟨_, exec_sne x nn s, rfl, skipIf_bne_pc_toNat s (s.readV x) nn⟩⟩

/-- Settles O11: JP is a jump to the widened `NNN`, and a jump to where `PC` already is changes nothing. -/
theorem jpSetsThePc : Obligations.JpSetsThePc := by
  unfold Obligations.JpSetsThePc
  refine fun nnn s => ⟨decode_jp nnn, _, exec_jp nnn s, addr_setWidth_toNat nnn, rfl, fun h => ?_⟩
  have target_eq : nnn.setWidth 16 = s.pc := BitVec.eq_of_toNat_eq ((addr_setWidth_toNat nnn).trans h)
  rw [target_eq, jump_self]

end Sys2Proof.Machine
end

section
/-! PROOFS. The loads, the immediate add and the bitwise instructions (41_load_and_alu.md R120 to R125): their opcodes, that
each one writes a single register past the opcode, and the statements about them. -/

namespace Sys2Proof

/-! ### Decoding -/

theorem decode_ldi (x : Nibble) (nn : Byte) : decode (0x6#4 ++ x ++ nn) = .ok (.ldi x nn) := by
  simp [decode, fieldClass_xnn, fieldX_xnn, fieldNN_xnn]

theorem decode_addi (x : Nibble) (nn : Byte) : decode (0x7#4 ++ x ++ nn) = .ok (.addi x nn) := by
  simp [decode, fieldClass_xnn, fieldX_xnn, fieldNN_xnn]

/-- A word of class 8 is left to the class's own decoder. -/
theorem decode_class8 (x y n : Nibble) : decode (0x8#4 ++ x ++ y ++ n) = decodeClass8 (0x8#4 ++ x ++ y ++ n) := by
  simp [decode, fieldClass_xyn]

theorem decode_mov (x y : Nibble) : decode (0x8#4 ++ x ++ y ++ 0x0#4) = .ok (.mov x y) := by
  simp [decode_class8, decodeClass8, fieldX_xyn, fieldY_xyn, fieldN_xyn]

theorem decode_or (x y : Nibble) : decode (0x8#4 ++ x ++ y ++ 0x1#4) = .ok (.or x y) := by
  simp [decode_class8, decodeClass8, fieldX_xyn, fieldY_xyn, fieldN_xyn]

theorem decode_and (x y : Nibble) : decode (0x8#4 ++ x ++ y ++ 0x2#4) = .ok (.and x y) := by
  simp [decode_class8, decodeClass8, fieldX_xyn, fieldY_xyn, fieldN_xyn]

theorem decode_xor (x y : Nibble) : decode (0x8#4 ++ x ++ y ++ 0x3#4) = .ok (.xor x y) := by
  simp [decode_class8, decodeClass8, fieldX_xyn, fieldY_xyn, fieldN_xyn]

end Sys2Proof

namespace Sys2Proof.Machine

/-! ### One register written past the opcode -/

theorem onlyRegistersTo_advance_writeV (s : State) (x : Nibble) (b : Byte) :
    s.OnlyRegistersTo (s.advance.writeV x b) := rfl

theorem readV_advance_writeV_other (s : State) {x r : Nibble} (h : r ≠ x) (b : Byte) :
    (s.advance.writeV x b).readV r = s.readV r := by
  rw [readV_writeV_other _ h, readV_advance]

/-! ### The instructions -/

theorem exec_ldi (x : Nibble) (nn : Byte) (s : State) : exec (.ldi x nn) s = .next (s.advance.writeV x nn) := rfl

theorem exec_addi (x : Nibble) (nn : Byte) (s : State) :
    exec (.addi x nn) s = .next (s.advance.writeV x (s.readV x + nn)) := rfl

theorem exec_mov (x y : Nibble) (s : State) : exec (.mov x y) s = .next (s.advance.writeV x (s.readV y)) := rfl

theorem exec_or (x y : Nibble) (s : State) :
    exec (.or x y) s = .next (s.advance.writeV x (s.readV x ||| s.readV y)) := rfl

theorem exec_and (x y : Nibble) (s : State) :
    exec (.and x y) s = .next (s.advance.writeV x (s.readV x &&& s.readV y)) := rfl

theorem exec_xor (x y : Nibble) (s : State) :
    exec (.xor x y) s = .next (s.advance.writeV x (s.readV x ^^^ s.readV y)) := rfl

/-! ### The obligations -/

/-- Settles O19: each of the three writes one register past the opcode, and ADDI's sum is the machine's byte addition, which
drops the carry. -/
theorem loadsAndImmediateAdd : Obligations.LoadsAndImmediateAdd := by
  unfold Obligations.LoadsAndImmediateAdd
  refine fun x y nn s => ⟨decode_ldi x nn, decode_addi x nn, decode_mov x y,
    ⟨_, exec_ldi x nn s, readV_writeV_same _ x nn, fun _ h => readV_advance_writeV_other s h _,
      onlyRegistersTo_advance_writeV s x _⟩,
    ⟨_, exec_addi x nn s, ?addi, fun _ h => readV_advance_writeV_other s h _, onlyRegistersTo_advance_writeV s x _⟩,
    ⟨_, exec_mov x y s, readV_writeV_same _ x _, fun _ h => readV_advance_writeV_other s h _,
      onlyRegistersTo_advance_writeV s x _⟩⟩
  case addi => rw [readV_writeV_same, BitVec.toNat_add]

/-- Settles O20: each of the three writes one register past the opcode, with a value whose bits are those of the operands
combined; with `X = Y` the value is `VX` with itself, which OR and AND leave as it is and XOR clears. -/
theorem bitwiseInstructions : Obligations.BitwiseInstructions := by
  unfold Obligations.BitwiseInstructions
  refine fun x y s => ⟨decode_or x y, decode_and x y, decode_xor x y,
    ⟨_, exec_or x y s, fun k => ?orBit, fun _ h => readV_advance_writeV_other s h _,
      onlyRegistersTo_advance_writeV s x _, ?orSelf⟩,
    ⟨_, exec_and x y s, fun k => ?andBit, fun _ h => readV_advance_writeV_other s h _,
      onlyRegistersTo_advance_writeV s x _, ?andSelf⟩,
    ⟨_, exec_xor x y s, fun k => ?xorBit, fun _ h => readV_advance_writeV_other s h _,
      onlyRegistersTo_advance_writeV s x _, ?xorSelf⟩⟩
  case orBit => rw [readV_writeV_same, BitVec.getLsbD_or]
  case orSelf => rintro rfl; rw [readV_writeV_same, BitVec.or_self]
  case andBit => rw [readV_writeV_same, BitVec.getLsbD_and]
  case andSelf => rintro rfl; rw [readV_writeV_same, BitVec.and_self]
  case xorBit => rw [readV_writeV_same, BitVec.getLsbD_xor]
  case xorSelf => rintro rfl; rw [readV_writeV_same, BitVec.xor_self]; rfl

end Sys2Proof.Machine
end

section
/-! PROOFS. The index register (42_index_and_memory.md R140, R141): the opcodes of LDX and ADDX, that each writes `I` alone
past the opcode, and the statement about them. -/

namespace Sys2Proof

/-! ### Decoding -/

theorem decode_ldx (nnn : Addr) : decode (0xA#4 ++ nnn) = .ok (.ldx nnn) := by
  simp [decode, fieldClass_nnn, fieldNNN_nnn]

/-- A word of class F is left to the class's own decoder. -/
theorem decode_classF (x : Nibble) (nn : Byte) : decode (0xF#4 ++ x ++ nn) = decodeClassF (0xF#4 ++ x ++ nn) := by
  simp [decode, fieldClass_xnn]

theorem decode_addx (x : Nibble) : decode (0xF#4 ++ x ++ 0x1E#8) = .ok (.addx x) := by
  simp [decode_classF, decodeClassF, fieldX_xnn, fieldNN_xnn]

end Sys2Proof

namespace Sys2Proof.Machine

/-! ### The instructions -/

theorem exec_ldx (nnn : Addr) (s : State) : exec (.ldx nnn) s = .next { s.advance with i := nnn.setWidth 16 } := rfl

theorem exec_addx (x : Nibble) (s : State) :
    exec (.addx x) s = .next { s.advance with i := s.i + (s.readV x).setWidth 16 } := rfl

/-- A byte added to `I` is added as a number, mod 65536. -/
theorem word_add_byte_toNat (w : Word) (b : Byte) : (w + b.setWidth 16).toNat = (w.toNat + b.toNat) % 65536 := by
  rw [BitVec.toNat_add, BitVec.toNat_setWidth_of_le (by decide)]

/-! ### The obligation -/

/-- Settles O26: both results are the state past the opcode with a new `I`, which for LDX is `NNN` widened and for ADDX the
machine's 16-bit sum, so the rest of the state, `VF` included, is as it was. -/
theorem indexIsSetAndAddedTo : Obligations.IndexIsSetAndAddedTo := by
  unfold Obligations.IndexIsSetAndAddedTo
  exact fun x nnn s => ⟨decode_ldx nnn, decode_addx x,
    ⟨_, exec_ldx nnn s, addr_setWidth_toNat nnn, rfl⟩,
    ⟨_, exec_addx x s, word_add_byte_toNat s.i (s.readV x), rfl⟩⟩

end Sys2Proof.Machine
end

section
/-! PROOFS. The delay timer (44_keypad_and_timers.md R186, R187): the opcodes of GDT and SDT, that GDT writes one register
and SDT the timer alone past the opcode, and the statement about them. -/

namespace Sys2Proof

/-! ### Decoding -/

theorem decode_gdt (x : Nibble) : decode (0xF#4 ++ x ++ 0x07#8) = .ok (.gdt x) := by
  simp [decode_classF, decodeClassF, fieldX_xnn, fieldNN_xnn]

theorem decode_sdt (x : Nibble) : decode (0xF#4 ++ x ++ 0x15#8) = .ok (.sdt x) := by
  simp [decode_classF, decodeClassF, fieldX_xnn, fieldNN_xnn]

end Sys2Proof

namespace Sys2Proof.Machine

/-! ### The instructions -/

theorem exec_gdt (x : Nibble) (s : State) : exec (.gdt x) s = .next (s.advance.writeV x s.dt) := rfl

theorem exec_sdt (x : Nibble) (s : State) : exec (.sdt x) s = .next { s.advance with dt := s.readV x } := rfl

/-! ### The obligation -/

/-- Settles O41: GDT writes one register past the opcode, with the timer's count, and SDT's result is the state past the
opcode with `VX` as the new count. -/
theorem delayTimerIsReadAndWritten : Obligations.DelayTimerIsReadAndWritten := by
  unfold Obligations.DelayTimerIsReadAndWritten
  exact fun x s => ⟨decode_gdt x, decode_sdt x,
    ⟨_, exec_gdt x s, readV_writeV_same _ x s.dt, fun _ h => readV_advance_writeV_other s h _,
      onlyRegistersTo_advance_writeV s x _⟩,
    ⟨_, exec_sdt x s, rfl, rfl⟩⟩

end Sys2Proof.Machine
end

section
/-! PROOFS. TICK (60_exceptions.md R211, R213): when the machine counts, what it then makes of the timers and when it reports
the sound edge, and the statement about it. -/

namespace Sys2Proof.Machine

/-! ### The count -/

/-- One down and never below 0 is subtraction of naturals. -/
theorem countDown_toNat (b : Byte) : (countDown b).toNat = b.toNat - 1 := by
  unfold countDown
  split
  case isTrue h => rw [h]; rfl
  case isFalse h => bv_omega

/-- The machine's `TICK_IN_WAIT` leaves `FAULTED` as the one mode without a count (R208, R212). -/
theorem tickCounts_hardware_iff (s : State) : tickCounts Params.hardware s = true ↔ s.mode ≠ .faulted := by
  unfold tickCounts
  cases s.mode with
  | running => simp
  | awaitingKey x => simp [Params.hardware]
  | faulted => simp

/-! ### The operation, with and without a count -/

theorem doTick_of_counts {p : Params} {s : State} (h : tickCounts p s = true) :
    s.doTick p = { s with dt := countDown s.dt, st := countDown s.st } := if_pos h

theorem doTick_of_not_counts {p : Params} {s : State} (h : ¬ tickCounts p s = true) : s.doTick p = s := if_neg h

theorem soundEdge_iff (p : Params) (s : State) : soundEdge p s = true ↔ tickCounts p s = true ∧ s.st.toNat = 1 := by
  simp [soundEdge, BitVec.toNat_eq]

/-! ### The obligation -/

/-- Settles O43: in `FAULTED` there is no count, so neither a change nor an edge; in the other modes both timers go one down,
and the edge is a count with `ST` at 1, which the count then takes to 0. -/
theorem tickCountsTheTimersDown : Obligations.TickCountsTheTimersDown := by
  unfold Obligations.TickCountsTheTimersDown
  intro s
  refine ⟨s.doTick Params.hardware, rfl, ?_⟩
  have hcounts := tickCounts_hardware_iff s
  have hedge := soundEdge_iff Params.hardware s
  simp only [output, Output.ticked.injEq]
  split
  case isTrue hf =>
    have hstill : ¬ tickCounts Params.hardware s = true := fun hc => hcounts.mp hc hf
    exact ⟨doTick_of_not_counts hstill, Bool.eq_false_iff.mpr fun he => hstill (hedge.mp he).1⟩
  case isFalse hf =>
    have hc : tickCounts Params.hardware s = true := hcounts.mpr hf
    rw [doTick_of_counts hc]
    refine ⟨countDown_toNat s.dt, countDown_toNat s.st, rfl, ?_⟩
    rw [hedge, countDown_toNat]
    exact ⟨fun ⟨_, h1⟩ => ⟨h1, by rw [h1]⟩, fun ⟨h1, _⟩ => ⟨hc, h1⟩⟩

end Sys2Proof.Machine
end

section
/-! PROOFS. Encoding and decoding (30_encoding.md sections 2 to 4): the opcodes of the remaining instructions, the round
trip in both directions, and the unknown opcodes by class. -/

namespace Sys2Proof

/-! ### Decoding, instruction by instruction -/

/-- 5XY0 is an instruction with low nibble 0 only (D5). -/
theorem decode_class5 (x y n : Nibble) : decode (0x5#4 ++ x ++ y ++ n) =
    if n = 0 then .ok (.ser x y) else .error .unknownClass5 := by
  simp [decode, fieldClass_xyn, fieldX_xyn, fieldY_xyn, fieldN_xyn]

/-- 9XY0 is an instruction with low nibble 0 only (D5). -/
theorem decode_class9 (x y n : Nibble) : decode (0x9#4 ++ x ++ y ++ n) =
    if n = 0 then .ok (.sner x y) else .error .unknownClass9 := by
  simp [decode, fieldClass_xyn, fieldX_xyn, fieldY_xyn, fieldN_xyn]

theorem decode_ser (x y : Nibble) : decode (0x5#4 ++ x ++ y ++ 0x0#4) = .ok (.ser x y) := decode_class5 x y 0x0#4

theorem decode_sner (x y : Nibble) : decode (0x9#4 ++ x ++ y ++ 0x0#4) = .ok (.sner x y) := decode_class9 x y 0x0#4

theorem decode_add (x y : Nibble) : decode (0x8#4 ++ x ++ y ++ 0x4#4) = .ok (.add x y) := by
  simp [decode_class8, decodeClass8, fieldX_xyn, fieldY_xyn, fieldN_xyn]

theorem decode_sub (x y : Nibble) : decode (0x8#4 ++ x ++ y ++ 0x5#4) = .ok (.sub x y) := by
  simp [decode_class8, decodeClass8, fieldX_xyn, fieldY_xyn, fieldN_xyn]

theorem decode_shr (x y : Nibble) : decode (0x8#4 ++ x ++ y ++ 0x6#4) = .ok (.shr x y) := by
  simp [decode_class8, decodeClass8, fieldX_xyn, fieldY_xyn, fieldN_xyn]

theorem decode_subn (x y : Nibble) : decode (0x8#4 ++ x ++ y ++ 0x7#4) = .ok (.subn x y) := by
  simp [decode_class8, decodeClass8, fieldX_xyn, fieldY_xyn, fieldN_xyn]

theorem decode_shl (x y : Nibble) : decode (0x8#4 ++ x ++ y ++ 0xE#4) = .ok (.shl x y) := by
  simp [decode_class8, decodeClass8, fieldX_xyn, fieldY_xyn, fieldN_xyn]

theorem decode_jp0 (nnn : Addr) : decode (0xB#4 ++ nnn) = .ok (.jp0 nnn) := by
  simp [decode, fieldClass_nnn, fieldNNN_nnn]

theorem decode_rnd (x : Nibble) (nn : Byte) : decode (0xC#4 ++ x ++ nn) = .ok (.rnd x nn) := by
  simp [decode, fieldClass_xnn, fieldX_xnn, fieldNN_xnn]

theorem decode_drw (x y n : Nibble) : decode (0xD#4 ++ x ++ y ++ n) = .ok (.drw x y n) := by
  simp [decode, fieldClass_xyn, fieldX_xyn, fieldY_xyn, fieldN_xyn]

/-- A word of class E is left to the class's own decoder. -/
theorem decode_classE (x : Nibble) (nn : Byte) : decode (0xE#4 ++ x ++ nn) = decodeClassE (0xE#4 ++ x ++ nn) := by
  simp [decode, fieldClass_xnn]

theorem decode_skp (x : Nibble) : decode (0xE#4 ++ x ++ 0x9E#8) = .ok (.skp x) := by
  simp [decode_classE, decodeClassE, fieldX_xnn, fieldNN_xnn]

theorem decode_sknp (x : Nibble) : decode (0xE#4 ++ x ++ 0xA1#8) = .ok (.sknp x) := by
  simp [decode_classE, decodeClassE, fieldX_xnn, fieldNN_xnn]

theorem decode_wkey (x : Nibble) : decode (0xF#4 ++ x ++ 0x0A#8) = .ok (.wkey x) := by
  simp [decode_classF, decodeClassF, fieldX_xnn, fieldNN_xnn]

theorem decode_sst (x : Nibble) : decode (0xF#4 ++ x ++ 0x18#8) = .ok (.sst x) := by
  simp [decode_classF, decodeClassF, fieldX_xnn, fieldNN_xnn]

theorem decode_font (x : Nibble) : decode (0xF#4 ++ x ++ 0x29#8) = .ok (.font x) := by
  simp [decode_classF, decodeClassF, fieldX_xnn, fieldNN_xnn]

theorem decode_bcd (x : Nibble) : decode (0xF#4 ++ x ++ 0x33#8) = .ok (.bcd x) := by
  simp [decode_classF, decodeClassF, fieldX_xnn, fieldNN_xnn]

theorem decode_stm (x : Nibble) : decode (0xF#4 ++ x ++ 0x55#8) = .ok (.stm x) := by
  simp [decode_classF, decodeClassF, fieldX_xnn, fieldNN_xnn]

theorem decode_ldm (x : Nibble) : decode (0xF#4 ++ x ++ 0x65#8) = .ok (.ldm x) := by
  simp [decode_classF, decodeClassF, fieldX_xnn, fieldNN_xnn]

/-! ### Encoding, then decoding -/

theorem decode_encode (i : Instr) : decode (encode i) = .ok i := by
  cases i with
  | cls => rfl
  | ret => rfl
  | jp nnn => exact decode_jp nnn
  | call nnn => exact decode_call nnn
  | se x nn => exact decode_se x nn
  | sne x nn => exact decode_sne x nn
  | ser x y => exact decode_ser x y
  | ldi x nn => exact decode_ldi x nn
  | addi x nn => exact decode_addi x nn
  | mov x y => exact decode_mov x y
  | or x y => exact decode_or x y
  | and x y => exact decode_and x y
  | xor x y => exact decode_xor x y
  | add x y => exact decode_add x y
  | sub x y => exact decode_sub x y
  | shr x y => exact decode_shr x y
  | subn x y => exact decode_subn x y
  | shl x y => exact decode_shl x y
  | sner x y => exact decode_sner x y
  | ldx nnn => exact decode_ldx nnn
  | jp0 nnn => exact decode_jp0 nnn
  | rnd x nn => exact decode_rnd x nn
  | drw x y n => exact decode_drw x y n
  | skp x => exact decode_skp x
  | sknp x => exact decode_sknp x
  | gdt x => exact decode_gdt x
  | wkey x => exact decode_wkey x
  | sdt x => exact decode_sdt x
  | sst x => exact decode_sst x
  | addx x => exact decode_addx x
  | font x => exact decode_font x
  | bcd x => exact decode_bcd x
  | stm x => exact decode_stm x
  | ldm x => exact decode_ldm x

/-- Every instruction is well formed: its word decodes, and a word that decodes has its row in the map. -/
theorem wellFormed_of_instr (i : Instr) : i.wellFormed = true := by
  obtain ⟨r, hr, hmatch, -⟩ := exists_row_of_decode_eq_ok (decode_encode i)
  exact wellFormed_of_row hr hmatch

/-- The two bytes of an instruction decode to it at the head of any byte sequence. -/
theorem decodeBytes_encodeBytes_append (i : Instr) (rest : List Byte) :
    decodeBytes (encodeBytes i ++ rest) = .ok (i, rest) := by
  simp only [encodeBytes, List.cons_append, List.nil_append, decodeBytes, Machine.wordOfBytes_bytes, decode_encode]

/-- Settles O1, by the decoding of each instruction's own pattern. -/
theorem decodingAnEncodedInstructionGivesItBack : Obligations.DecodingAnEncodedInstructionGivesItBack := by
  unfold Obligations.DecodingAnEncodedInstructionGivesItBack
  exact fun i rest => ⟨wellFormed_of_instr i, decode_encode i, decodeBytes_encodeBytes_append i rest⟩

/-! ### Decoding, then encoding -/

section Digits
variable {w : Word} {c n : Nibble} {nn : Byte}

theorem nnn_eq_word (hc : fieldClass w = c) : c ++ fieldNNN w = w := by
  rw [← hc, ← word_eq_nnn]

theorem xnn_eq_word (hc : fieldClass w = c) : c ++ fieldX w ++ fieldNN w = w := by
  rw [← hc, ← word_eq_xnn]

/-- A word with its low byte known is its class, `X` and that byte. -/
theorem xnn_eq_word_of_nn (hc : fieldClass w = c) (hnn : fieldNN w = nn) : c ++ fieldX w ++ nn = w := by
  rw [← hnn, xnn_eq_word hc]

/-- A word with its low nibble known is its class, `X`, `Y` and that nibble. -/
theorem xyn_eq_word (hc : fieldClass w = c) (hn : fieldN w = n) : c ++ fieldX w ++ fieldY w ++ n = w := by
  rw [← hc, ← hn, ← word_eq_xyn]

end Digits

theorem nibble_cases : ∀ c : Nibble, c = 0x0#4 ∨ c = 0x1#4 ∨ c = 0x2#4 ∨ c = 0x3#4 ∨ c = 0x4#4 ∨ c = 0x5#4 ∨
    c = 0x6#4 ∨ c = 0x7#4 ∨ c = 0x8#4 ∨ c = 0x9#4 ∨ c = 0xA#4 ∨ c = 0xB#4 ∨ c = 0xC#4 ∨ c = 0xD#4 ∨ c = 0xE#4 ∨
    c = 0xF#4 := by decide

/-- What a chain of tests accepts, its first test accepts or the rest does. -/
theorem of_ite_ok_eq_ok {p : Prop} [Decidable p] {i j : Instr} {next : Except DecodeReject Instr}
    (h : (if p then .ok j else next) = .ok i) : p ∧ j = i ∨ next = .ok i := by
  split at h
  case isTrue hp => exact .inl ⟨hp, Except.ok.inj h⟩
  case isFalse => exact .inr h

theorem encode_of_decodeClass0 {w : Word} {i : Instr} (h : decodeClass0 w = .ok i) : encode i = w := by
  simp only [decodeClass0] at h
  iterate 2
    obtain ⟨hw, rfl⟩ | h := of_ite_ok_eq_ok h
    · exact hw.symm
  cases h

theorem encode_of_decodeClass8 {w : Word} {i : Instr} (hc : fieldClass w = 0x8#4) (h : decodeClass8 w = .ok i) :
    encode i = w := by
  simp only [decodeClass8] at h
  iterate 9
    obtain ⟨hn, rfl⟩ | h := of_ite_ok_eq_ok h
    · exact xyn_eq_word hc hn
  cases h

theorem encode_of_decodeClassE {w : Word} {i : Instr} (hc : fieldClass w = 0xE#4) (h : decodeClassE w = .ok i) :
    encode i = w := by
  simp only [decodeClassE] at h
  iterate 2
    obtain ⟨hnn, rfl⟩ | h := of_ite_ok_eq_ok h
    · exact xnn_eq_word_of_nn hc hnn
  cases h

theorem encode_of_decodeClassF {w : Word} {i : Instr} (hc : fieldClass w = 0xF#4) (h : decodeClassF w = .ok i) :
    encode i = w := by
  simp only [decodeClassF] at h
  iterate 9
    obtain ⟨hnn, rfl⟩ | h := of_ite_ok_eq_ok h
    · exact xnn_eq_word_of_nn hc hnn
  cases h

/-- Settles O2, by cases on the class: the digits the decoder reads, and those it tests for, are the whole word. -/
theorem encodingADecodedWordGivesItBack : Obligations.EncodingADecodedWordGivesItBack := by
  unfold Obligations.EncodingADecodedWordGivesItBack
  intro w i h
  rcases nibble_cases (fieldClass w) with
    hc | hc | hc | hc | hc | hc | hc | hc | hc | hc | hc | hc | hc | hc | hc | hc <;>
    simp only [decode, hc, BitVec.reduceEq, if_true, if_false] at h
  · exact encode_of_decodeClass0 h
  · cases h; exact nnn_eq_word hc
  · cases h; exact nnn_eq_word hc
  · cases h; exact xnn_eq_word hc
  · cases h; exact xnn_eq_word hc
  · obtain ⟨hn, rfl⟩ | h := of_ite_ok_eq_ok h
    · exact xyn_eq_word hc hn
    · cases h
  · cases h; exact xnn_eq_word hc
  · cases h; exact xnn_eq_word hc
  · exact encode_of_decodeClass8 hc h
  · obtain ⟨hn, rfl⟩ | h := of_ite_ok_eq_ok h
    · exact xyn_eq_word hc hn
    · cases h
  · cases h; exact nnn_eq_word hc
  · cases h; exact nnn_eq_word hc
  · cases h; exact xnn_eq_word hc
  · cases h; exact xyn_eq_word hc rfl
  · exact encode_of_decodeClassE hc h
  · exact encode_of_decodeClassF hc h

/-! ### The unknown opcodes -/

/-- A chain of tests rejects what its first test does not accept and the rest rejects. -/
theorem ite_ok_eq_error_iff {p : Prop} [Decidable p] {i : Instr} {next : Except DecodeReject Instr} :
    (∃ e, (if p then .ok i else next) = .error e) ↔ ¬ p ∧ ∃ e, next = .error e := by
  by_cases hp : p <;> simp [hp]

/-- In class 0 the last three digits tell two words apart. -/
theorem eq_iff_fieldNNN_eq {w : Word} (hc : fieldClass w = 0x0#4) (nnn : Addr) :
    w = 0x0#4 ++ nnn ↔ fieldNNN w = nnn := by
  constructor
  · rintro rfl; exact fieldNNN_nnn _ _
  · rintro rfl; exact (nnn_eq_word hc).symm

theorem decodeClass0_error_iff {w : Word} (hc : fieldClass w = 0x0#4) :
    (∃ e, decodeClass0 w = .error e) ↔ fieldNNN w ≠ 0x0E0#12 ∧ fieldNNN w ≠ 0x0EE#12 := by
  simp [decodeClass0, ite_ok_eq_error_iff, ← eq_iff_fieldNNN_eq hc]

/-- The low nibbles with no row in class 8 are those left over by the nine that have one. -/
theorem decodeClass8_error_iff (w : Word) : (∃ e, decodeClass8 w = .error e) ↔
    fieldN w ∈ [0x8#4, 0x9#4, 0xA#4, 0xB#4, 0xC#4, 0xD#4, 0xF#4] := by
  have others : ∀ n : Nibble, n ∈ [0x8#4, 0x9#4, 0xA#4, 0xB#4, 0xC#4, 0xD#4, 0xF#4] ↔
      n ∉ [0x0#4, 0x1#4, 0x2#4, 0x3#4, 0x4#4, 0x5#4, 0x6#4, 0x7#4, 0xE#4] := by decide
  rw [others]
  simp [decodeClass8, ite_ok_eq_error_iff]

theorem decodeClassE_error_iff (w : Word) : (∃ e, decodeClassE w = .error e) ↔ fieldNN w ∉ [0x9E#8, 0xA1#8] := by
  simp [decodeClassE, ite_ok_eq_error_iff]

theorem decodeClassF_error_iff (w : Word) : (∃ e, decodeClassF w = .error e) ↔
    fieldNN w ∉ [0x07#8, 0x0A#8, 0x15#8, 0x18#8, 0x1E#8, 0x29#8, 0x33#8, 0x55#8, 0x65#8] := by
  simp [decodeClassF, ite_ok_eq_error_iff]

/-- Settles O4, by cases on the class: a class with one row knows every word, or every word with low nibble 0, so that
only the classes with decoders of their own remain. -/
theorem unknownOpcodesByClass : Obligations.UnknownOpcodesByClass := by
  unfold Obligations.UnknownOpcodesByClass
  intro w
  rcases nibble_cases (fieldClass w) with
    hc | hc | hc | hc | hc | hc | hc | hc | hc | hc | hc | hc | hc | hc | hc | hc <;>
    simp only [decode, hc, BitVec.reduceEq, if_true, if_false, true_and, false_and, false_or, or_false,
      ite_ok_eq_error_iff, reduceCtorEq, exists_false, Except.error.injEq, exists_eq', and_true, ne_eq]
  · exact decodeClass0_error_iff hc
  · exact decodeClass8_error_iff w
  · exact decodeClassE_error_iff w
  · exact decodeClassF_error_iff w

/-- Settles O5: each word is decoded by computation. -/
theorem wordsOfEveryFamilyDecode : Obligations.WordsOfEveryFamilyDecode := by
  unfold Obligations.WordsOfEveryFamilyDecode
  decide

end Sys2Proof
end

section
/-! PROOFS. The two-register skips and JP0, and the faults and the undoing of calls (40_control_flow.md): what SER, SNER
and JP0 do, and the statements about them. -/

namespace Sys2Proof.Machine

theorem exec_ser (x y : Nibble) (s : State) : exec (.ser x y) s = .next (s.skipIf (s.readV x == s.readV y)) := rfl

theorem exec_sner (x y : Nibble) (s : State) : exec (.sner x y) s = .next (s.skipIf (s.readV x != s.readV y)) := rfl

theorem exec_jp0 (nnn : Addr) (s : State) :
    exec (.jp0 nnn) s = .next (s.jump (nnn.setWidth 16 + (s.readV 0x0#4).setWidth 16)) := rfl

/-- The target of JP0 is a sum of numbers: it stays far below 65536. -/
theorem jp0_target_toNat (nnn : Addr) (b : Byte) :
    (nnn.setWidth 16 + b.setWidth 16).toNat = nnn.toNat + b.toNat := by
  rw [word_add_byte_toNat, addr_setWidth_toNat]
  omega

/-- Settles O14: the two faulting cases of CALL and RET. -/
theorem stackFaultsAreRecorded : Obligations.StackFaultsAreRecorded := by
  unfold Obligations.StackFaultsAreRecorded
  exact fun nnn s => ⟨exec_call_of_full nnn, fun h => exec_ret_of_nil (List.length_eq_zero_iff.1 h)⟩

/-- Settles O15: the return pops the very entry the call pushed. -/
theorem returnUndoesCall : Obligations.ReturnUndoesCall := by
  unfold Obligations.ReturnUndoesCall
  intro nnn s t hroom ht
  rw [exec_call_of_room nnn hroom] at ht
  cases ht
  exact exec_ret_of_cons rfl

/-- Settles O17: both are the skip template, on equality and on its negation; a register equals itself. -/
theorem skipsOnTwoRegisters : Obligations.SkipsOnTwoRegisters := by
  unfold Obligations.SkipsOnTwoRegisters
  refine fun x y n s => ⟨decode_class5 x y n, decode_class9 x y n,
    ⟨_, exec_ser x y s, rfl, skipIf_beq_pc_toNat s _ _, ?serSelf⟩,
    ⟨_, exec_sner x y s, rfl, skipIf_bne_pc_toNat s _ _, ?snerSelf⟩⟩
  case serSelf => rintro rfl; rw [beq_self_eq_true, skipIf_pc_true]
  case snerSelf => rintro rfl; rw [bne_self_eq_false, skipIf_pc_false]

/-- Settles O18: the target is the sum of the two numbers. -/
theorem jp0AddsV0 : Obligations.Jp0AddsV0 := by
  unfold Obligations.Jp0AddsV0
  refine fun nnn s => ⟨decode_jp0 nnn, _, exec_jp0 nnn s, jp0_target_toNat nnn _, ?_, rfl⟩
  rw [jump_pc, jp0_target_toNat]
  omega

end Sys2Proof.Machine
end

section
/-! PROOFS. The flag-writing instructions (41_load_and_alu.md R126 to R130): each is the flag pair of this hardware with
a result and a flag that are known as numbers, and the statements about them. -/

namespace Sys2Proof.Machine

theorem exec_add (x y : Nibble) (s : State) : exec (.add x y) s = .next (s.advance.writeFlagged Params.hardware x
    (carryFlag (s.readV x) (s.readV y)) (s.readV x + s.readV y)) := rfl

theorem exec_sub (x y : Nibble) (s : State) : exec (.sub x y) s = .next (s.advance.writeFlagged Params.hardware x
    (flagByte (decide ((s.readV x).toNat > (s.readV y).toNat))) (s.readV x - s.readV y)) := rfl

theorem exec_subn (x y : Nibble) (s : State) : exec (.subn x y) s = .next (s.advance.writeFlagged Params.hardware x
    (flagByte (decide ((s.readV y).toNat > (s.readV x).toNat))) (s.readV y - s.readV x)) := rfl

theorem exec_shr (x y : Nibble) (s : State) : exec (.shr x y) s = .next (s.advance.writeFlagged Params.hardware x
    (shiftRightFlag (s.readV x)) (s.readV x >>> 1)) := rfl

theorem exec_shl (x y : Nibble) (s : State) : exec (.shl x y) s = .next (s.advance.writeFlagged Params.hardware x
    (shiftLeftFlag (s.readV x)) (s.readV x <<< 1)) := rfl

/-- The two writes of a flag-writing instruction, past the opcode: result and flag where they belong, the rest as
before. -/
theorem flaggedTo_writeFlagged (s : State) (x : Nibble) {f r : Byte} {result flag : Nat} (hr : r.toNat = result)
    (hf : f.toNat = flag) : s.FlaggedTo (s.advance.writeFlagged Params.hardware x f r) x result flag where
  result := by rw [readV_writeFlagged_hardware, if_pos rfl, hr]
  flag hx := by rw [readV_writeFlagged_hardware, if_neg (Ne.symm hx), if_pos rfl, hf]
  others r hx hvf := by rw [readV_writeFlagged_hardware, if_neg hx, if_neg hvf, readV_advance]
  only := rfl

/-- A difference of a byte with itself leaves 0 in `VX` and in `VF`. -/
theorem readV_writeFlagged_zero (s : State) (x : Nibble) :
    (s.writeFlagged Params.hardware x 0 0).readV x = 0 ∧ (s.writeFlagged Params.hardware x 0 0).readV vf = 0 := by
  simp [readV_writeV]

/-- Byte subtraction as numbers, mod 256. -/
theorem byte_sub_toNat (a b : Byte) : (a - b).toNat = (a.toNat + 256 - b.toNat) % 256 := by
  rw [BitVec.toNat_sub]
  omega

theorem strictFlag_toNat (a b : Nat) : (flagByte (decide (a > b))).toNat = if a > b then 1 else 0 := by
  simp only [flagByte_toNat, decide_eq_true_eq]

/-- Settles O21: the flag pair with the byte sum and the carry. -/
theorem addReportsTheCarry : Obligations.AddReportsTheCarry := by
  unfold Obligations.AddReportsTheCarry
  exact fun x y s => ⟨decode_add x y, _, exec_add x y s,
    flaggedTo_writeFlagged s x (BitVec.toNat_add _ _) (carryFlag_toNat _ _)⟩

/-- Settles O22: the flag pair with the byte difference and the strict comparison, both 0 at equal operands. -/
theorem subReportsTheStrictComparison : Obligations.SubReportsTheStrictComparison := by
  unfold Obligations.SubReportsTheStrictComparison
  refine fun x y s => ⟨decode_sub x y, _, exec_sub x y s,
    flaggedTo_writeFlagged s x (byte_sub_toNat _ _) (strictFlag_toNat _ _), ?equal⟩
  case equal =>
    rintro rfl
    rw [BitVec.sub_self, decide_eq_false (lt_irrefl _)]
    exact readV_writeFlagged_zero _ x

/-- Settles O23: the flag pair with the byte difference and the strict comparison, both 0 at equal operands. -/
theorem subnReportsTheStrictComparison : Obligations.SubnReportsTheStrictComparison := by
  unfold Obligations.SubnReportsTheStrictComparison
  refine fun x y s => ⟨decode_subn x y, _, exec_subn x y s,
    flaggedTo_writeFlagged s x (byte_sub_toNat _ _) (strictFlag_toNat _ _), ?equal⟩
  case equal =>
    rintro rfl
    rw [BitVec.sub_self, decide_eq_false (lt_irrefl _)]
    exact readV_writeFlagged_zero _ x

/-- A shift to the right by one bit halves; the bit shifted out is the remainder. -/
theorem byte_shr_toNat (b : Byte) : (b >>> 1).toNat = b.toNat / 2 := by
  rw [BitVec.toNat_ushiftRight, Nat.shiftRight_one]

theorem byte_shl_toNat (b : Byte) : (b <<< 1).toNat = b.toNat * 2 % 256 := by
  rw [BitVec.toNat_shiftLeft, Nat.shiftLeft_eq]

/-- Settles O24: the flag pair with the halved and the doubled byte; `Y` does not occur in what a shift does. -/
theorem shiftsReportTheBitShiftedOut : Obligations.ShiftsReportTheBitShiftedOut := by
  unfold Obligations.ShiftsReportTheBitShiftedOut
  exact fun x y s => ⟨decode_shr x y, decode_shl x y,
    ⟨_, exec_shr x y s, flaggedTo_writeFlagged s x (byte_shr_toNat _) (shiftRightFlag_toNat _),
      fun y' => exec_shr x y' s⟩,
    ⟨_, exec_shl x y s, flaggedTo_writeFlagged s x (byte_shl_toNat _) (shiftLeftFlag_toNat _),
      fun y' => exec_shl x y' s⟩⟩

end Sys2Proof.Machine
end

section
/-! PROOFS. The random byte (41_load_and_alu.md R131): what RND leaves in the registers, and the statement about it. -/

namespace Sys2Proof.Machine

theorem exec_rnd (x : Nibble) (nn : Byte) (s : State) : exec (.rnd x nn) s =
    .next { s.advance.writeV x (Config.rnd s.draws &&& nn) with draws := s.draws + 1 } := rfl

/-- What RND leaves in a register: the masked byte in `VX`, every other register as before. -/
theorem readV_rnd (s : State) (x r : Nibble) (b : Byte) (d : Nat) :
    State.readV { s.advance.writeV x b with draws := d } r = if r = x then b else s.readV r :=
  readV_writeV s.advance x r b

/-- Settles O25: the masked byte is the conjunction with NN bit by bit, whatever byte is drawn. -/
theorem rndMasksTheRandomByte : Obligations.RndMasksTheRandomByte := by
  unfold Obligations.RndMasksTheRandomByte
  refine fun x nn s => ⟨decode_rnd x nn, _, exec_rnd x nn s, rfl, fun k => ?bit, ?none, ?all, fun r hr => ?other, rfl⟩
  case bit => rw [readV_rnd, if_pos rfl, BitVec.getLsbD_and]
  case none => rintro rfl; rw [readV_rnd, if_pos rfl]; exact BitVec.and_zero
  case all => rintro rfl; rw [readV_rnd, if_pos rfl]; exact BitVec.and_allOnes
  case other => rw [readV_rnd, if_neg hr]

end Sys2Proof.Machine
end

section
/-! PROOFS. The font (42_index_and_memory.md R142): the address FONT computes and the glyphs in reset memory, and the
statement about them. -/

namespace Sys2Proof.Machine

theorem exec_font (x : Nibble) (s : State) :
    exec (.font x) s = .next { s.advance with i := BitVec.ofNat 16 ((s.readV x).toNat * 5) } := rfl

/-- A byte times 5 fits in `I`. -/
theorem glyph_addr_toNat (b : Byte) : (BitVec.ofNat 16 (b.toNat * 5)).toNat = b.toNat * 5 := by
  rw [BitVec.toNat_ofNat, Nat.mod_eq_of_lt (by omega)]

/-- Reset memory holds the printed glyph of each of the sixteen digits at five times the digit (R31). -/
theorem fiveBytes_reset_of_digit : ∀ d < 16,
    Memory.fiveBytes State.reset.mem (d * 5) = fontRows.getD d 0 := by decide

/-- Settles O27: the address is the product as a number, and the glyphs stand five bytes apart in reset memory. -/
theorem fontPointsAtTheGlyph : Obligations.FontPointsAtTheGlyph := by
  unfold Obligations.FontPointsAtTheGlyph
  refine fun x s => ⟨decode_font x, _, exec_font x s, glyph_addr_toNat _, rfl, fun hdigit => ?_⟩
  rw [glyph_addr_toNat]
  exact fiveBytes_reset_of_digit _ hdigit

end Sys2Proof.Machine
end

section
/-! PROOFS. The keypad instructions (44_keypad_and_timers.md R181 to R183): the selected key, the skips on it and the
wait, and the statements about them. -/

namespace Sys2Proof.Machine

theorem exec_skp (x : Nibble) (s : State) : exec (.skp x) s = .next (s.skipIf (s.key (s.keyIndex x))) := rfl

theorem exec_sknp (x : Nibble) (s : State) : exec (.sknp x) s = .next (s.skipIf (!s.key (s.keyIndex x))) := rfl

theorem exec_wkey (x : Nibble) (s : State) : exec (.wkey x) s = .next { s.advance with mode := .awaitingKey x } := rfl

/-- The key selected is the one in the row of keys at `VX mod 16`. -/
theorem key_keyIndex (s : State) (x : Nibble) :
    s.key (s.keyIndex x) = s.keys.toList.getD ((s.readV x).toNat % 16) false := by
  have hlt : (s.readV x).toNat % 16 < 16 := Nat.mod_lt _ (by decide)
  simp [State.key, State.keyIndex, hlt]

theorem skipIf_pc (s : State) (c : Bool) : (s.skipIf c).pc = if c then s.pc + 4 else s.pc + 2 := by
  cases c <;> simp

/-- Settles O38: both are the skip template, on the selected key and on its negation. -/
theorem keySkipsReadTheSelectedKey : Obligations.KeySkipsReadTheSelectedKey := by
  unfold Obligations.KeySkipsReadTheSelectedKey
  refine fun x s => ⟨decode_skp x, decode_sknp x, ⟨_, exec_skp x s, rfl, ?_⟩, ⟨_, exec_sknp x s, rfl, ?_⟩⟩
  · rw [skipIf_pc, key_keyIndex]
  · rw [skipIf_pc, key_keyIndex]
    simp only [Bool.not_eq_true', ← Bool.not_eq_true, ite_not]

/-- Settles O39: the result is the state past the opcode with the wait as its mode. -/
theorem wkeyOnlySuspends : Obligations.WkeyOnlySuspends := by
  unfold Obligations.WkeyOnlySuspends
  exact fun x s => ⟨decode_wkey x, _, exec_wkey x s, rfl, rfl⟩

end Sys2Proof.Machine
end

section
/-! PROOFS. The sound timer (44_keypad_and_timers.md R188, 60_exceptions.md R214): what SST does and when the tone is
on, and the statement about it. -/

namespace Sys2Proof.Machine

theorem exec_sst (x : Nibble) (s : State) : exec (.sst x) s = .next { s.advance with st := s.readV x } := rfl

theorem toneOn_iff (s : State) : s.toneOn = true ↔ s.st.toNat ≠ 0 := by
  simp [State.toneOn, BitVec.toNat_eq]

/-- Settles O42: the result is the state past the opcode with `VX` as the sound timer. -/
theorem soundTimerIsWritten : Obligations.SoundTimerIsWritten := by
  unfold Obligations.SoundTimerIsWritten
  exact fun x s => ⟨decode_sst x, _, exec_sst x s, rfl, rfl, toneOn_iff _⟩

end Sys2Proof.Machine
end

section
/-! PROOFS. The stores and loads at `I` (42_index_and_memory.md section 2): the run of bytes an instruction stores, on
this hardware and where it faults under `OOB_MODE = FAULT`, the registers as such a run, and the statements about BCD,
STM and LDM. -/

namespace Sys2Proof.Machine

/-- An instruction has one outcome. -/
theorem exec_unique {i : Instr} {s t u : State} (h : exec i s = .next t) (hu : exec i s = .next u) : t = u :=
  Host.Outcome.next.inj (h.symm.trans hu)

/-! ### A run of bytes stored at `I` -/

/-- Byte `k` of a run of at most 4096 bytes stored at `I` stands at operand address `k`. -/
theorem read_operandAddr_of_writeSpan {s : State} {m : Memory} {bs : List Byte}
    (h : writeSpan Params.hardware s.mem s.i.toNat bs = some m) (hlen : bs.length ≤ 4096) {k : Nat} (hk : k < bs.length) :
    Memory.read m (s.operandAddr k) = bs.getD k 0 :=
  read_writeSpan_stored bs h hlen hk

/-- Under `OOB_MODE = FAULT` a store that passes 4095 only faults. -/
theorem storeAtI_fault {p : Params} (hp : p.oobMode = .fault) (op : Word) {s : State} {bs : List Byte}
    (hpos : 0 < bs.length) (h : 4096 < s.i.toNat + bs.length) : s.storeAtI p op bs = s.raise p .memoryFault op := by
  obtain ⟨b, bs, rfl⟩ := List.exists_cons_of_length_pos hpos
  rw [State.storeAtI, writeSpan_fault hp b bs h]

/-! ### BCD (R143) -/

theorem exec_bcd_of_writeSpan {x : Nibble} {s : State} {m : Memory}
    (hm : writeSpan Params.hardware s.mem s.i.toNat (bcdDigits (s.readV x)) = some m) :
    exec (.bcd x) s = .next { s.advance with mem := m } := by
  simp only [exec, execBcd, bcdWith, State.storeAtI, hm]

theorem exec_bcd (x : Nibble) (s : State) :
    ∃ m, writeSpan Params.hardware s.mem s.i.toNat (bcdDigits (s.readV x)) = some m ∧
      exec (.bcd x) s = .next { s.advance with mem := m } := by
  obtain ⟨m, hm⟩ := writeSpan_hardware_some (bcdDigits (s.readV x)) s.mem s.i.toNat
  exact ⟨m, hm, exec_bcd_of_writeSpan hm⟩

theorem exec_bcd_next {x : Nibble} {s t : State} (h : exec (.bcd x) s = .next t) :
    ∃ m, writeSpan Params.hardware s.mem s.i.toNat (bcdDigits (s.readV x)) = some m ∧
      t = { s.advance with mem := m } := by
  obtain ⟨m, hm, hexec⟩ := exec_bcd x s
  exact ⟨m, hm, exec_unique h hexec⟩

theorem bcdDigits_length (b : Byte) : (bcdDigits b).length = 3 := rfl

/-- The digits as numbers: each is below 256, so its byte holds it. -/
theorem bcdDigits_toNat (b : Byte) : ((bcdDigits b).getD 0 0).toNat = b.toNat / 100 ∧
    ((bcdDigits b).getD 1 0).toNat = b.toNat / 10 % 10 ∧ ((bcdDigits b).getD 2 0).toNat = b.toNat % 10 := by
  have := b.isLt
  refine ⟨?_, ?_, ?_⟩ <;> simp only [bcdDigits, List.getD_cons_zero, List.getD_cons_succ, BitVec.toNat_ofNat] <;> omega

/-- Settles O28: the run stored is the three digits; under the alternative a run whose third address is 4096 or more
faults. -/
theorem bcdStoresTheDigits : Obligations.BcdStoresTheDigits := by
  unfold Obligations.BcdStoresTheDigits
  refine fun x s => ⟨decode_bcd x, ?hardware, fun p hp h => ⟨_, rfl, ?fault⟩⟩
  case hardware =>
    obtain ⟨m, hm, hexec⟩ := exec_bcd x s
    have stored : ∀ k < 3, Memory.read m (s.operandAddr k) = (bcdDigits (s.readV x)).getD k 0 :=
      fun k hk => read_operandAddr_of_writeSpan hm (by rw [bcdDigits_length]; decide) hk
    obtain ⟨hundreds, tens, ones⟩ := bcdDigits_toNat (s.readV x)
    refine ⟨_, hexec, ?_, ?_, ?_, fun a ha => read_writeSpan_other _ hm ha, rfl⟩
    · rw [stored 0 (by decide), hundreds]
    · rw [stored 1 (by decide), tens]
    · rw [stored 2 (by decide), ones]
  case fault =>
    have hlen := bcdDigits_length (s.readV x)
    rw [bcdWith, storeAtI_fault hp _ (by omega) (by omega)]
    exact ⟨rfl, rfl, rfl⟩

/-! ### STM (R144) -/

theorem exec_stm_of_writeSpan {x : Nibble} {s : State} {m : Memory}
    (hm : writeSpan Params.hardware s.mem s.i.toNat (s.regsUpTo x) = some m) :
    exec (.stm x) s = .next { s.advance with mem := m } := by
  simp only [exec, execStm, stmWith, State.storeAtI, hm]

theorem exec_stm (x : Nibble) (s : State) :
    ∃ m, writeSpan Params.hardware s.mem s.i.toNat (s.regsUpTo x) = some m ∧
      exec (.stm x) s = .next { s.advance with mem := m } := by
  obtain ⟨m, hm⟩ := writeSpan_hardware_some (s.regsUpTo x) s.mem s.i.toNat
  exact ⟨m, hm, exec_stm_of_writeSpan hm⟩

theorem exec_stm_next {x : Nibble} {s t : State} (h : exec (.stm x) s = .next t) :
    ∃ m, writeSpan Params.hardware s.mem s.i.toNat (s.regsUpTo x) = some m ∧
      t = { s.advance with mem := m } := by
  obtain ⟨m, hm, hexec⟩ := exec_stm x s
  exact ⟨m, hm, exec_unique h hexec⟩

@[simp] theorem regsUpTo_length (s : State) (x : Nibble) : (s.regsUpTo x).length = x.toNat + 1 := by
  simp [State.regsUpTo]
  omega

/-- Byte `r` of the registers up to `VX` is `V[r]`. -/
theorem regsUpTo_getD (s : State) {x r : Nibble} (hr : r.toNat ≤ x.toNat) :
    (s.regsUpTo x).getD r.toNat 0 = s.readV r := by
  have := r.isLt
  simp [State.regsUpTo, State.readV, List.getD_eq_getElem?_getD, Nat.lt_succ_of_le hr, this]

/-- After STM the byte at operand address `r` is `V[r]`. -/
theorem read_of_exec_stm {x r : Nibble} {s t : State} (h : exec (.stm x) s = .next t) (hr : r.toNat ≤ x.toNat) :
    Memory.read t.mem (s.operandAddr r.toNat) = s.readV r := by
  obtain ⟨m, hm, rfl⟩ := exec_stm_next h
  have hlen := regsUpTo_length s x
  rw [← regsUpTo_getD s hr]
  exact read_operandAddr_of_writeSpan hm (by omega) (by omega)

/-- Settles O29: the run stored is the registers up to `VX`; under the alternative a run whose last address is 4096 or
more faults. -/
theorem stmStoresTheRegisters : Obligations.StmStoresTheRegisters := by
  unfold Obligations.StmStoresTheRegisters
  refine fun x s => ⟨decode_stm x, ?hardware, fun p hp h => ⟨_, rfl, ?fault⟩⟩
  case hardware =>
    obtain ⟨m, hm, hexec⟩ := exec_stm x s
    exact ⟨_, hexec, fun r => read_of_exec_stm hexec,
      fun a ha => read_writeSpan_other _ hm (by rwa [regsUpTo_length]), rfl⟩
  case fault =>
    have hlen := regsUpTo_length s x
    rw [stmWith, storeAtI_fault hp _ (by omega) (by omega)]
    exact ⟨rfl, rfl, rfl⟩

/-! ### LDM (R145) -/

/-- A run of `n` bytes loaded from `V0` on leaves the registers from number `n` on as they were. -/
theorem readV_fillRegs_above {bs : List Byte} {r : Nibble} (s : State) (h : bs.length ≤ r.toNat) :
    (s.fillRegs bs).readV r = s.readV r := by
  rw [readV_fillRegs, List.getD_eq_default _ _ h]

/-- Settles O30: the run loaded is the `X + 1` operand bytes; under the alternative a run whose last address is 4096 or
more faults. -/
theorem ldmLoadsTheRegisters : Obligations.LdmLoadsTheRegisters := by
  unfold Obligations.LdmLoadsTheRegisters
  refine fun x s => ⟨decode_ldm x, ⟨_, exec_ldm x s, fun r hr => ?loaded, fun r hr => ?above, rfl⟩,
    fun p hp h => ⟨_, rfl, ?fault⟩⟩
  case loaded => exact readV_fillRegs_operands (Nat.lt_succ_of_le hr) s _
  case above => rw [readV_fillRegs_above _ (by simpa using hr), readV_advance]
  case fault =>
    rw [ldmWith, readSpan_fault hp _ _ (by omega)]
    exact ⟨rfl, rfl, rfl⟩

/-! ### Stored bytes come back -/

/-- Settles O31: LDM loads register `r` from the operand address where STM stored it. -/
theorem loadUndoesStore : Obligations.LoadUndoesStore := by
  unfold Obligations.LoadUndoesStore
  intro x s t u hstm hmem hi
  refine ⟨_, exec_ldm x u, fun r hr => ?_⟩
  have same_addr : u.operandAddr r.toNat = s.operandAddr r.toNat := by rw [State.operandAddr, hi, State.operandAddr]
  rw [readV_fillRegs_operands (Nat.lt_succ_of_le hr), same_addr, hmem, read_of_exec_stm hstm hr]

/-- The address after an operand address is the next operand address, wrapping at the end of memory. -/
theorem operandAddr_succ {s : State} {a k : Nat} (h : a % 4096 = s.operandAddr k) :
    (a + 1) % 4096 = s.operandAddr (k + 1) := by
  simp only [State.operandAddr, memSize_eq] at h ⊢
  omega

theorem pc_of_exec_stm {x : Nibble} {s t : State} (h : exec (.stm x) s = .next t) : t.pc = s.pc + 2 := by
  obtain ⟨m, -, rfl⟩ := exec_stm_next h
  rfl

/-- Settles O32: the two bytes fetched next are at the operand addresses where STM stored the two registers. -/
theorem storedCodeIsFetchedAtOnce : Obligations.StoredCodeIsFetchedAtOnce := by
  unfold Obligations.StoredCodeIsFetchedAtOnce
  intro x r r' s t hstm hsucc hr' haddr
  have haddr' : ((s.pc + 2).toNat + 1) % 4096 = s.operandAddr r'.toNat := hsucc ▸ operandAddr_succ haddr
  rw [State.opcodeAtPc, pc_of_exec_stm hstm, memSize_eq, haddr, haddr', read_of_exec_stm hstm (by omega),
    read_of_exec_stm hstm hr']
  rfl

end Sys2Proof.Machine
end

section
/-! PROOFS. The display (43_display.md): the pixels under a sprite as one list, what CLS and DRW do on this hardware,
the packed frame, and the statements about them. -/

namespace Sys2Proof.Machine

/-! ### CLS (R161) -/

theorem exec_cls (s : State) :
    exec .cls s = .next { s.advance with fb := FrameBuffer.clear, dirty := true } := rfl

/-- Settles O33: the result is the state past the opcode with the clear buffer and `DIRTY` set. -/
theorem clsClearsTheDisplay : Obligations.ClsClearsTheDisplay := by
  unfold Obligations.ClsClearsTheDisplay
  exact fun s => ⟨rfl, _, exec_cls s, pixel_clear, rfl, rfl⟩

/-! ### DRW (R162 to R164) -/

/-- The screen pixels under the lit pixels of a sprite of `n` rows at `I`, drawn at `(VX, VY)`, in the order DRW visits
them. -/
def State.spritePixels (s : State) (x y n : Nibble) : List (Fin 64 × Fin 32) :=
  litPixels Params.hardware ((s.readV x).toNat % 64) ((s.readV y).toNat % 32)
    ((List.range n.toNat).map fun r => Memory.read s.mem (s.operandAddr r))

theorem exec_drw (x y n : Nibble) (s : State) : exec (.drw x y n) s =
    .next { s.advance.writeV vf (collisionFlag s.fb (s.spritePixels x y n)) with
      fb := (s.spritePixels x y n).foldl FrameBuffer.flip s.fb, dirty := true } := by
  obtain ⟨_, rfl, hdraw⟩ := drwWith_hardware x y n s
  exact congrArg Host.Outcome.next hdraw

/-- The pixels DRW visits are those the sprite covers. -/
theorem mem_spritePixels {s : State} {x y n : Nibble} {px : Fin 64} {py : Fin 32} :
    (px, py) ∈ s.spritePixels x y n ↔ s.spriteCovers x y n px py := by
  simp [State.spritePixels, State.spriteCovers, mem_litPixels, spriteBit, Params.hardware, Fin.ext_iff]

theorem spritePixels_nodup (s : State) (x y n : Nibble) : (s.spritePixels x y n).Nodup :=
  litPixels_nodup _ _ _ (by simp; omega)

/-- A sprite of no rows covers nothing. -/
theorem spritePixels_zero (s : State) (x y : Nibble) : s.spritePixels x y 0 = [] := rfl

/-- Drawing a sprite flips a pixel exactly if the sprite covers it. -/
theorem pixel_draw (s : State) (x y n : Nibble) (fb : FrameBuffer) (px : Fin 64) (py : Fin 32) :
    ((s.spritePixels x y n).foldl FrameBuffer.flip fb).pixel px py =
      (fb.pixel px py ^^ decide ((px, py) ∈ s.spritePixels x y n)) :=
  pixel_foldl_flip _ fb (spritePixels_nodup s x y n) px py

/-- The flag is 0 or 1. -/
theorem flagByte_zero_or_one (b : Bool) : flagByte b = 0 ∨ flagByte b = 1 := by
  cases b with
  | false => exact .inl rfl
  | true => exact .inr rfl

/-- What DRW leaves in a register: the flag in `VF`, every other register as before. -/
theorem readV_drw (s : State) (f : Byte) (fb : FrameBuffer) (d : Bool) (r : Nibble) :
    State.readV { s.advance.writeV vf f with fb := fb, dirty := d } r = if r = vf then f else s.readV r :=
  readV_writeV s.advance vf r f

/-- Settles O34: the buffer is the old one with the covered pixels flipped, each of them once. -/
theorem drwFlipsThePixelsUnderTheSprite : Obligations.DrwFlipsThePixelsUnderTheSprite := by
  unfold Obligations.DrwFlipsThePixelsUnderTheSprite
  refine fun x y n s => ⟨decode_drw x y n, _, exec_drw x y n s, fun px py hcov => ?covered, fun px py hcov => ?bare,
    ?flag, fun r hr => ?others, rfl, ?noRows, rfl⟩
  case covered => rw [pixel_draw, decide_eq_true (mem_spritePixels.2 hcov), Bool.xor_true]
  case bare => rw [pixel_draw, decide_eq_false (mt mem_spritePixels.1 hcov), Bool.xor_false]
  case flag => rw [readV_drw, if_pos rfl]; exact flagByte_zero_or_one _
  case others => rw [readV_drw, if_neg hr]
  case noRows => rintro rfl; rw [readV_drw, if_pos rfl, spritePixels_zero]; exact ⟨rfl, rfl⟩

/-- Settles O35: the flag is 1 exactly when a pixel of the list was on. -/
theorem collisionIsAnOnPixelUnderTheSprite : Obligations.CollisionIsAnOnPixelUnderTheSprite := by
  unfold Obligations.CollisionIsAnOnPixelUnderTheSprite
  refine fun x y n s => ⟨_, exec_drw x y n s, ?_, fun hoff => ?_⟩ <;> rw [readV_drw, if_pos rfl, collisionFlag_eq]
  · rintro ⟨px, py, hcov, hon⟩
    exact if_pos ⟨(px, py), mem_spritePixels.2 hcov, hon⟩
  · refine if_neg ?_
    rintro ⟨⟨px, py⟩, hmem, hon⟩
    rw [hoff px py (mem_spritePixels.1 hmem)] at hon
    cases hon

/-- The sprite's place and rows depend on the coordinates, `I` and memory alone. -/
theorem spritePixels_congr {s t : State} {x y n : Nibble} (hx : t.readV x = s.readV x) (hy : t.readV y = s.readV y)
    (hi : t.i = s.i) (hmem : t.mem = s.mem) : t.spritePixels x y n = s.spritePixels x y n := by
  simp only [State.spritePixels, State.operandAddr, hx, hy, hi, hmem]

theorem spritePixels_of_exec_drw {x y n : Nibble} {s t : State} (hx : x ≠ vf) (hy : y ≠ vf)
    (h : exec (.drw x y n) s = .next t) : t.spritePixels x y n = s.spritePixels x y n := by
  obtain rfl := exec_unique h (exec_drw x y n s)
  exact spritePixels_congr (by rw [readV_drw, if_neg hx]) (by rw [readV_drw, if_neg hy]) rfl rfl

theorem pixel_of_exec_drw {x y n : Nibble} {s t : State} (h : exec (.drw x y n) s = .next t) (px : Fin 64) (py : Fin 32) :
    t.fb.pixel px py = (s.fb.pixel px py ^^ decide ((px, py) ∈ s.spritePixels x y n)) := by
  obtain rfl := exec_unique h (exec_drw x y n s)
  exact pixel_draw s x y n s.fb px py

/-- Settles O36: the second draw covers the same pixels, and a pixel flipped twice is as it was. -/
theorem drawingTwiceRestoresTheDisplay : Obligations.DrawingTwiceRestoresTheDisplay := by
  unfold Obligations.DrawingTwiceRestoresTheDisplay
  refine fun x y n s t hx hy h => ⟨_, exec_drw x y n t, frameBuffer_ext fun px py => ?_⟩
  rw [pixel_of_exec_drw (exec_drw x y n t), spritePixels_of_exec_drw hx hy h, pixel_of_exec_drw h, Bool.xor_assoc,
    Bool.xor_self, Bool.xor_false]

/-! ### The packed frame (R166) -/

theorem frame_length (fb : FrameBuffer) : fb.frame.length = 256 := by
  rw [FrameBuffer.frame, List.length_map, List.length_range]

theorem frame_getD (fb : FrameBuffer) {k : Nat} (hk : k < 256) : fb.frame.getD k 0 = fb.rasterByte k := by
  simp [FrameBuffer.frame, hk]

/-- Bit `7 - c` of byte `8 * y + b` of the frame is the pixel in column `8 * b + c` of row `y`. -/
theorem rasterByte_getLsbD (fb : FrameBuffer) (px : Fin 64) (py : Fin 32) :
    (fb.rasterByte ((64 * py.val + px.val) / 8)).getLsbD (7 - px.val % 8) = fb.pixel px py := by
  have row : Fin.ofNat 32 ((64 * py.val + px.val) / 8 / 8) = py := Fin.ext (by simp only [Fin.ofNat]; omega)
  have bit : 56 - 8 * ((64 * py.val + px.val) / 8 % 8) + (7 - px.val % 8) = 63 - px.val := by omega
  have inByte : 7 - px.val % 8 < 8 := by omega
  simp only [FrameBuffer.rasterByte, row, BitVec.getLsbD_extractLsb', bit, inByte, FrameBuffer.pixel, BitVec.getMsbD,
    px.isLt, decide_true, Bool.true_and]

/-- Settles O37: the frame is 256 bytes, and a pixel's byte and bit number are the quotient and the complemented
remainder of its raster index. -/
theorem frameIsPackedInRasterOrder : Obligations.FrameIsPackedInRasterOrder := by
  unfold Obligations.FrameIsPackedInRasterOrder
  refine fun fb => ⟨frame_length fb, fun px py => ?_⟩
  rw [frame_getD fb (by omega), rasterByte_getLsbD]

end Sys2Proof.Machine
end

section
/-! PROOFS. `CYCLE`, what it answers, and the host's schedule (30_encoding.md section 1, 00_scope.md R6): the outputs of
a cycle by mode and opcode, that every operation completes, and the statements about the step. -/

namespace Sys2Proof.Machine

/-! ### What a cycle answers (R70, R77) -/

theorem cycleResult_of_running {s t : State} (hm : s.mode = .running) (h : cycle s = .next t) :
    cycleResult s = if t.mode = .faulted then .faulted else .executed := by
  simp only [cycleResult, hm, h]

theorem cycleEvent_of_known {s : State} {i : Instr} (hm : s.mode = .running) (hd : decode s.opcodeAtPc = .ok i) :
    cycleEvent s = none := by
  simp only [cycleEvent, hm, fetchWord_eq_opcodeAtPc, hd]

theorem cycleEvent_of_unknown {s : State} {e : DecodeReject} (hm : s.mode = .running)
    (hd : decode s.opcodeAtPc = .error e) : cycleEvent s = some ⟨s.pc, s.opcodeAtPc⟩ := by
  simp only [cycleEvent, hm, fetchWord_eq_opcodeAtPc, hd]

theorem cycleEvent_of_not_running {s : State} (hm : s.mode ≠ .running) : cycleEvent s = none := by
  cases h : s.mode with
  | running => exact absurd h hm
  | awaitingKey x => simp only [cycleEvent, h]
  | faulted => simp only [cycleEvent, h]

theorem output_cycle_awaiting {s : State} {x : Nibble} (h : s.mode = .awaitingKey x) :
    output .cycle s = .cycled .held none := by
  simp only [output, cycleResult, cycleEvent, h]

theorem output_cycle_faulted {s : State} (h : s.mode = .faulted) : output .cycle s = .cycled .halted none := by
  simp only [output, cycleResult, cycleEvent, h]

/-- The event is emitted exactly for an unknown opcode on a running core. -/
theorem cycleEvent_eq_some {s : State} {e : UnknownOpcode} (h : cycleEvent s = some e) :
    s.mode = .running ∧ e = ⟨s.pc, s.opcodeAtPc⟩ ∧ ∃ r, decode s.opcodeAtPc = .error r := by
  by_cases hm : s.mode = .running
  · cases hd : decode s.opcodeAtPc with
    | ok i => rw [cycleEvent_of_known hm hd] at h; cases h
    | error r =>
      rw [cycleEvent_of_unknown hm hd] at h
      exact ⟨hm, (Option.some.inj h).symm, r, rfl⟩
  · rw [cycleEvent_of_not_running hm] at h; cases h

/-! ### A step that is a cycle -/

theorem step_of_nextOp_cycle {s : State} (h : s.nextOp = .cycle) : step s = cycle s.unschedule := by
  rw [step, h, operate]

theorem step_of_runs {s : State} {i : Instr} (h : s.runs i) : step s = exec i s.unschedule := by
  obtain ⟨hop, hm, hd⟩ := h
  rw [step_of_nextOp_cycle hop, cycle_running (unschedule_mode s ▸ hm), opcodeAtPc_unschedule, hd]

/-- The schedule put back after an instruction that ran without it. -/
theorem exec_of_exec_unschedule {i : Instr} {s t : State} (h : exec i s.unschedule = .next t) :
    exec i s = .next { t with schedule := s.schedule } :=
  exec_schedule (s := s.unschedule) s.schedule h

/-- A cycle that runs an instruction answers by the mode the instruction leaves, with no event. -/
theorem output_cycle_of_runs {s t : State} {i : Instr} (h : s.runs i) (ht : step s = .next t) :
    output .cycle s = .cycled (if t.mode = .faulted then .faulted else .executed) none := by
  rw [step_of_runs h] at ht
  obtain ⟨-, hm, hd⟩ := h
  have hcycle : cycle s = .next { t with schedule := s.schedule } := by
    rw [cycle_running hm, hd]
    exact exec_of_exec_unschedule ht
  rw [output, cycleResult_of_running hm hcycle, cycleEvent_of_known hm hd]

/-- Settles O6: the cycle of a known opcode is its instruction, which does not look at the schedule. -/
theorem aStepRunsTheDecodedInstruction : Obligations.AStepRunsTheDecodedInstruction := by
  unfold Obligations.AStepRunsTheDecodedInstruction
  refine fun s i hruns => ⟨step_of_runs hruns, fun hempty => ?_, fun t => output_cycle_of_runs hruns⟩
  rw [step_of_runs hruns, unschedule_of_empty s hempty]

/-- Settles O8: the cycle of an unknown opcode only advances, and the event is emitted by no other cycle. -/
theorem anUnknownOpcodeIsANoOpWithAnEvent : Obligations.AnUnknownOpcodeIsANoOpWithAnEvent := by
  unfold Obligations.AnUnknownOpcodeIsANoOpWithAnEvent
  refine ⟨fun s hop hm ⟨e, hd⟩ => ⟨?_, ?_⟩, fun s e => cycleEvent_eq_some⟩
  · rw [step_of_nextOp_cycle hop, cycle_running (unschedule_mode s ▸ hm), opcodeAtPc_unschedule, hd]
    rfl
  · have hcycle : cycle s = .next s.advance := by rw [cycle_running hm, hd]
    have still_running : s.advance.mode ≠ .faulted := by rw [advance_mode, hm]; decide
    rw [output, cycleResult_of_running hm hcycle, cycleEvent_of_unknown hm hd, if_neg still_running]

/-- Settles O9: a cycle outside `RUNNING` is the identity. -/
theorem aCycleOutsideRunningChangesNothing : Obligations.ACycleOutsideRunningChangesNothing := by
  unfold Obligations.ACycleOutsideRunningChangesNothing
  exact fun s => ⟨fun x hm => ⟨cycle_awaiting hm, output_cycle_awaiting hm⟩,
    fun hm => ⟨cycle_faulted hm, output_cycle_faulted hm⟩⟩

/-! ### Every operation completes (60_exceptions.md R205) -/

theorem exec_next (i : Instr) (s : State) : ∃ t, exec i s = .next t := by
  cases i
  case call nnn =>
    by_cases hroom : s.sp < 16
    · exact ⟨_, exec_call_of_room nnn hroom⟩
    · exact ⟨_, exec_call_of_full nnn (Nat.le_of_not_lt hroom)⟩
  case ret =>
    cases hs : s.stack with
    | nil => exact ⟨_, exec_ret_of_nil hs⟩
    | cons a rest => exact ⟨_, exec_ret_of_cons hs⟩
  all_goals exact ⟨_, rfl⟩

theorem cycle_next (s : State) : ∃ t, cycle s = .next t := by
  rcases cycle_cases (s := s) rfl with ⟨-, h⟩ | ⟨i, -, -, h⟩ | ⟨e, -, -, h⟩
  · exact ⟨s, h⟩
  · exact h ▸ exec_next i s
  · exact ⟨s.advance, h⟩

theorem operate_next (op : Op) (s : State) : ∃ t, operate op s = .next t := by
  cases op
  case cycle => exact cycle_next s
  all_goals exact ⟨_, rfl⟩

theorem run_next (ops : Nat → Op) (s : State) (n : Nat) : ∃ t, run ops s n = .next t := by
  induction n with
  | zero => exact ⟨s, rfl⟩
  | succ n ih =>
    obtain ⟨t, ht⟩ := ih
    rw [run, ht]
    exact operate_next (ops n) t

/-- Settles O54: an instruction and an operation always answer a next state, and so does each operation of a run. -/
theorem everyStepAnswersANextState : Obligations.EveryStepAnswersANextState := by
  unfold Obligations.EveryStepAnswersANextState
  exact fun s => ⟨operate_next s.nextOp s.unschedule, fun ops => run_next ops s⟩

/-! ### The schedule and the run -/

theorem with_schedule_self {s : State} {l : List Op} (h : s.schedule = l) : { s with schedule := l } = s := by
  subst h
  rfl

/-- An operation on a state with nothing scheduled schedules nothing. -/
theorem operate_keeps_empty_schedule {op : Op} {s t : State} (h : operate op s = .next t) (hs : s.schedule = []) :
    t.schedule = [] := by
  have hempty := operate_schedule [] h
  rw [with_schedule_self hs, h] at hempty
  exact congrArg State.schedule (Host.Outcome.next.inj hempty)

/-- `n` scheduled operations are performed by `n` steps, by induction on `n`: the first one leaves the others scheduled.
-/
theorem stepTimes_schedule (n : Nat) : ∀ (ops : Nat → Op) (s : State), s.schedule = [] →
    stepTimes n { s with schedule := (List.range n).map ops } = run ops s n := by
  induction n with
  | zero => intro ops s hs; exact congrArg Host.Outcome.next (with_schedule_self hs)
  | succ n ih =>
    intro ops s hs
    obtain ⟨t, ht⟩ := operate_next (ops 0) s
    have hsched : (List.range (n + 1)).map ops = ops 0 :: (List.range n).map fun k => ops (k + 1) := by
      rw [List.range_succ_eq_map, List.map_cons, List.map_map]
      rfl
    have hstep : step { s with schedule := (List.range (n + 1)).map ops } =
        .next { t with schedule := (List.range n).map fun k => ops (k + 1) } := by
      rw [step_of_cons hsched]
      exact operate_schedule (s := s) _ ht
    rw [stepTimes, hstep, run_front ht]
    exact ih _ t (operate_keeps_empty_schedule ht hs)

/-- Settles O10: the step takes the schedule's first operation, and a run's operations taken one by one are the run. -/
theorem theScheduleIsPerformedInOrder : Obligations.TheScheduleIsPerformedInOrder := by
  unfold Obligations.TheScheduleIsPerformedInOrder
  exact fun s => ⟨step_of_empty, fun op rest => step_of_cons, fun ops n => stepTimes_schedule n ops s⟩

end Sys2Proof.Machine
end

section
/-! PROOFS. The host's operations (44_keypad_and_timers.md R184, 70_reset_and_hazards.md, 60_exceptions.md R208): the
lowest key, RESOLVE, LOAD and RESET, and the statements about them. -/

namespace Sys2Proof.Machine

/-! ### RESOLVE (R184) -/

/-- The first key is the key down below which every key is up. -/
theorem firstKey_eq_some_iff {s : State} {n : Nat} : firstKey s.keys = some n ↔
    ∃ k : Nibble, k.toNat = n ∧ s.key k = true ∧ ∀ j : Nibble, j.toNat < n → s.key j = false := by
  simp only [firstKey, List.findIdx?_eq_some_iff_getElem, Vector.length_toList, Vector.getElem_toList, State.key]
  constructor
  · rintro ⟨hn, hdown, hup⟩
    refine ⟨BitVec.ofNat 4 n, Nat.mod_eq_of_lt hn, ?_, fun j hj => ?_⟩
    · simpa only [BitVec.toNat_ofNat, Nat.mod_eq_of_lt hn] using hdown
    · simpa using hup j.toNat hj
  · rintro ⟨k, rfl, hdown, hup⟩
    refine ⟨k.isLt, hdown, fun j hj => ?_⟩
    have hj16 : j < 16 := Nat.lt_trans hj k.isLt
    have := hup (BitVec.ofNat 4 j) (by simpa [Nat.mod_eq_of_lt hj16] using hj)
    simpa [Nat.mod_eq_of_lt hj16] using this

/-- There is no first key when every key is up. -/
theorem firstKey_eq_none {s : State} (h : ∀ k : Nibble, s.key k = false) : firstKey s.keys = none := by
  cases hk : firstKey s.keys with
  | none => rfl
  | some n =>
    obtain ⟨k, -, hdown, -⟩ := firstKey_eq_some_iff.1 hk
    rw [h k] at hdown
    cases hdown

theorem doResolve_of_key {s : State} {x : Nibble} {n : Nat} (hm : s.mode = .awaitingKey x)
    (hk : firstKey s.keys = some n) : s.doResolve = { s.writeV x (BitVec.ofNat 8 n) with mode := .running } := by
  simp only [State.doResolve, hm, hk]

theorem doResolve_of_no_key {s : State} (hk : firstKey s.keys = none) : s.doResolve = s := by
  cases hm : s.mode <;> simp only [State.doResolve, hm, hk]

theorem doResolve_of_not_awaiting {s : State} (hm : ∀ x, s.mode ≠ .awaitingKey x) : s.doResolve = s := by
  cases h : s.mode with
  | running => simp only [State.doResolve, h]
  | awaitingKey x => exact absurd h (hm x)
  | faulted => simp only [State.doResolve, h]

theorem resolveResult_of_not_awaiting {s : State} (hm : ∀ x, s.mode ≠ .awaitingKey x) :
    resolveResult s = .notWaiting := by
  cases h : s.mode with
  | running => simp only [resolveResult, h]
  | awaitingKey x => exact absurd h (hm x)
  | faulted => simp only [resolveResult, h]

/-- A key's number fits in a byte. -/
theorem keyByte_toNat (k : Nibble) : (BitVec.ofNat 8 k.toNat).toNat = k.toNat := by
  rw [BitVec.toNat_ofNat, Nat.mod_eq_of_lt (by omega)]

/-- What RESOLVE leaves in a register: the key in its target, every other register as before. -/
theorem readV_resolved (s : State) (x r : Nibble) (b : Byte) (m : Mode) :
    State.readV { s.writeV x b with mode := m } r = if r = x then b else s.readV r :=
  readV_writeV s x r b

/-- Settles O40, by its three cases: no key down, a lowest key down, no wait. -/
theorem resolveTakesTheLowestKey : Obligations.ResolveTakesTheLowestKey := by
  unfold Obligations.ResolveTakesTheLowestKey
  refine fun s => ⟨s.doResolve, rfl, fun x hm hup => ?still, fun x k hm hdown hup => ?resolved, fun hm => ?outside⟩
  case still =>
    have hk := firstKey_eq_none hup
    exact ⟨doResolve_of_no_key hk, by simp only [output, resolveResult, hm, hk]⟩
  case resolved =>
    have hk := firstKey_eq_some_iff.2 ⟨k, rfl, hdown, hup⟩
    rw [doResolve_of_key hm hk]
    refine ⟨?_, fun r hr => ?_, rfl, by simp only [output, resolveResult, hm, hk]⟩
    · rw [readV_resolved, if_pos rfl, keyByte_toNat]
    · rw [readV_resolved, if_neg hr]
  case outside =>
    exact ⟨doResolve_of_not_awaiting hm, congrArg Output.resolved (resolveResult_of_not_awaiting hm)⟩

/-! ### LOAD (R234) -/

/-- This hardware accepts a program that fits, outside `FAULTED`. -/
theorem loadAccepted_hardware_iff (bytes : List Byte) (s : State) :
    loadAccepted Params.hardware bytes s = true ↔ s.mode ≠ .faulted ∧ bytes.length ≤ 3584 := by
  simp [loadAccepted, Program.fits, Params.hardware]

theorem doLoad_of_accepted {bytes : List Byte} {s : State} (h : s.mode ≠ .faulted ∧ bytes.length ≤ 3584) :
    s.doLoad Params.hardware bytes = { s with mem := Memory.writeRun s.mem 0x200 bytes } := by
  rw [State.doLoad, if_pos ((loadAccepted_hardware_iff bytes s).2 h), List.take_of_length_le h.2]

theorem doLoad_of_rejected {bytes : List Byte} {s : State} (h : ¬ (s.mode ≠ .faulted ∧ bytes.length ≤ 3584)) :
    s.doLoad Params.hardware bytes = s :=
  if_neg (mt (loadAccepted_hardware_iff bytes s).1 h)

/-- Settles O45: an accepted program is one run of bytes from 0x200 on. -/
theorem loadWritesMemoryOnly : Obligations.LoadWritesMemoryOnly := by
  unfold Obligations.LoadWritesMemoryOnly
  intro bytes s
  refine ⟨s.doLoad Params.hardware bytes, rfl, ?_⟩
  have haccepted := loadAccepted_hardware_iff bytes s
  split
  case isTrue h =>
    rw [doLoad_of_accepted h]
    refine ⟨fun k hk => ?_, fun a ha => ?_, rfl, by rw [output, loadResult, if_pos (haccepted.2 h)]⟩
    · rw [read_writeRun, if_pos (by omega), Nat.add_sub_cancel_left]
    · rw [read_writeRun, if_neg (by omega)]
  case isFalse h =>
    exact ⟨doLoad_of_rejected h, by rw [output, loadResult, if_neg (mt haccepted.1 h)]⟩

/-! ### RESET (R230, R232) -/

theorem readV_doReset (s : State) (r : Nibble) : s.doReset.readV r = 0 := Vector.getElem_replicate _

/-- Past the font, reset memory is 0. -/
theorem resetByte_of_ge {a : Nat} (h : 80 ≤ a) : Memory.resetByte a = 0 := List.getD_eq_default _ _ h

/-- Settles O46: the result's fields are those of the state after reset, its memory lists no byte. -/
theorem resetLeavesTheCreationState : Obligations.ResetLeavesTheCreationState := by
  unfold Obligations.ResetLeavesTheCreationState
  exact fun s => ⟨s.doReset, rfl, readV_doReset s, rfl, rfl, rfl, rfl, rfl, rfl, pixel_clear, rfl, rfl, rfl, rfl,
    fun _ _ => rfl, fun _ ha => resetByte_of_ge ha⟩

/-! ### SET_KEYS, DIRTY_ACK, and the halted core -/

theorem doDirtyAck_of_faulted {s : State} (h : s.mode = .faulted) : s.doDirtyAck = s := if_pos h

theorem doDirtyAck_of_not_faulted {s : State} (h : s.mode ≠ .faulted) :
    s.doDirtyAck = { s with dirty := false } := if_neg h

/-- Settles O47: the two operations by their definitions, DIRTY_ACK by mode. -/
theorem keysAndDirtyAreTheHosts : Obligations.KeysAndDirtyAreTheHosts := by
  unfold Obligations.KeysAndDirtyAreTheHosts
  refine fun k s => ⟨rfl, s.doDirtyAck, rfl, ?_⟩
  split
  case isTrue h => exact doDirtyAck_of_faulted h
  case isFalse h => rw [doDirtyAck_of_not_faulted h]; exact ⟨rfl, rfl⟩

/-- Settles O48, by cases on the operation: each of the five others is the identity in `FAULTED`. -/
theorem aFaultedCoreIsFrozen : Obligations.AFaultedCoreIsFrozen := by
  unfold Obligations.AFaultedCoreIsFrozen
  intro s op hf
  have not_waiting : ∀ x, s.mode ≠ .awaitingKey x := by simp [hf]
  have not_counting : ¬ tickCounts Params.hardware s = true := fun h => (tickCounts_hardware_iff s).1 h hf
  have not_loading : ∀ bytes : List Byte, ¬ (s.mode ≠ .faulted ∧ bytes.length ≤ 3584) := fun _ h => h.1 hf
  refine ⟨fun hreset hkeys => ?frozen, output_cycle_faulted hf, ?tick, ?resolve, fun bytes => ?load⟩
  case frozen =>
    cases op with
    | reset => exact absurd rfl hreset
    | setKeys k => exact absurd rfl (hkeys k)
    | load bytes => exact congrArg Host.Outcome.next (doLoad_of_rejected (not_loading bytes))
    | cycle => exact cycle_faulted hf
    | resolve => exact congrArg Host.Outcome.next (doResolve_of_not_awaiting not_waiting)
    | tick => exact congrArg Host.Outcome.next (doTick_of_not_counts not_counting)
    | dirtyAck => exact congrArg Host.Outcome.next (doDirtyAck_of_faulted hf)
  case tick => exact congrArg Output.ticked (Bool.eq_false_iff.2 fun h => not_counting ((soundEdge_iff _ _).1 h).1)
  case resolve => exact congrArg Output.resolved (resolveResult_of_not_awaiting not_waiting)
  case load =>
    rw [output, loadResult, if_neg (mt (loadAccepted_hardware_iff bytes s).1 (not_loading bytes))]

end Sys2Proof.Machine
end

section
/-! PROOFS. The alternative `OOB_MODE = FAULT` (60_exceptions.md R203): the fetch and DRW where an address reaches 4096
and where none does, and the statement about them. -/

namespace Sys2Proof.Machine

section FaultMode
variable {p : Params} (hp : p.oobMode = .fault) {s : State}
include hp

theorem fetchWord_fault_out (h : 4096 ≤ s.pc.toNat + 1) : fetchWord p s = none := by
  have hlow : effAddr p (s.pc.toNat + 1) = none := by rw [effAddr_fault hp, if_neg (Nat.not_lt.2 h)]
  rw [fetchWord, hlow]
  cases effAddr p s.pc.toNat <;> rfl

theorem fetchWord_fault_in (h : s.pc.toNat + 1 < 4096) : fetchWord p s = some s.opcodeAtPc := by
  have hhigh : s.pc.toNat < 4096 := Nat.lt_of_succ_lt h
  rw [fetchWord_of_effAddr (by rw [effAddr_fault hp, if_pos hhigh]) (by rw [effAddr_fault hp, if_pos h]),
    State.opcodeAtPc, memSize_eq, Nat.mod_eq_of_lt hhigh, Nat.mod_eq_of_lt h]

/-- A run that stays below 4096 does not fault. -/
theorem readSpan_fault_in (m : Memory) (n : Nat) : ∀ {base : Nat},
    base + n ≤ 4096 → ∃ bs, readSpan p m base n = some bs := by
  induction n with
  | zero => exact fun _ => ⟨[], rfl⟩
  | succ n ih =>
    intro base h
    obtain ⟨bs, hbs⟩ := ih (base := base + 1) (by omega)
    exact ⟨Memory.read m base :: bs, by rw [readSpan, hbs, effAddr_fault hp, if_pos (by omega)]⟩

end FaultMode

/-- With `FAULT_PC` at the opcode's address a fatal fault changes the mode and the fault record only. -/
theorem raise_opcodeAddr {p : Params} (hpc : p.faultPc = .opcodeAddr) (cause : FaultCause) (op : Word) (s : State) :
    s.raise p cause op = { s with mode := .faulted, faultRecord := some ⟨cause, s.pc, op⟩ } := by
  simp only [State.raise, hpc]

/-- A draw whose rows can be read keeps the mode. -/
theorem drwWith_mode {p : Params} {x y n : Nibble} {s : State} {rows : List Byte}
    (h : readSpan p s.mem s.i.toNat n.toNat = some rows) : (drwWith p x y n s).mode = s.mode := by
  simp only [drwWith, h, writeV_mode, advance_mode]

/-- Settles O49: the fetch and the sprite's rows fault exactly where one of their addresses is 4096 or more. -/
theorem faultModeRaisesMemoryFault : Obligations.FaultModeRaisesMemoryFault := by
  unfold Obligations.FaultModeRaisesMemoryFault
  refine fun p s hp hpc => ⟨fun meaning hm => ⟨fun hout => ?fetchOut, fun hin i hd => ?fetchIn⟩,
    fun x y n => ⟨fun hn hout => ?drawOut, fun hin => ?drawIn⟩⟩
  case fetchOut => simp only [cycleWith, hm, fetchWord_fault_out hp hout, raise_opcodeAddr hpc]
  case fetchIn => simp only [cycleWith, hm, fetchWord_fault_in hp hin, hd]
  case drawOut =>
    obtain ⟨k, hk⟩ := Nat.exists_eq_add_one_of_ne_zero hn.ne'
    have hrows : readSpan p s.mem s.i.toNat n.toNat = none := hk ▸ readSpan_fault hp s.mem k (by omega)
    simp only [drwWith, hrows, raise_opcodeAddr hpc, encode]
  case drawIn =>
    rcases hin with rfl | hin
    · exact drwWith_mode rfl
    · obtain ⟨rows, hrows⟩ := readSpan_fault_in hp s.mem n.toNat (base := s.i.toNat) (by omega)
      exact drwWith_mode hrows

end Sys2Proof.Machine
end

section
/-! PROOFS. The frames of the instructions (10_state.md, 20_memory.md): which registers, bytes and other state an
instruction can change, what it does to the control state, and the statements about them. -/

namespace Sys2Proof.Machine

/-! ### The two instructions with two outcomes -/

theorem exec_call_cases {nnn : Addr} {s t : State} (h : exec (.call nnn) s = .next t) :
    (s.sp < 16 ∧ t = { s with pc := nnn.setWidth 16, stack := (s.pc + 2) :: s.stack }) ∨
    (16 ≤ s.sp ∧ t = { s with
      mode := .faulted, faultRecord := some ⟨.stackOverflow, s.pc, 0x2#4 ++ nnn⟩ }) := by
  by_cases hroom : s.sp < 16
  · exact .inl ⟨hroom, exec_unique h (exec_call_of_room nnn hroom)⟩
  · have hfull := Nat.le_of_not_lt hroom
    exact .inr ⟨hfull, exec_unique h (exec_call_of_full nnn hfull)⟩

theorem exec_ret_cases {s t : State} (h : exec .ret s = .next t) :
    (∃ a rest, s.stack = a :: rest ∧ t = { s with pc := a, stack := rest }) ∨
    (s.stack = [] ∧ t = { s with
      mode := .faulted, faultRecord := some ⟨.stackUnderflow, s.pc, 0x00EE#16⟩ }) := by
  cases hs : s.stack with
  | nil =>
    exact .inr ⟨rfl, hs ▸ exec_unique h (exec_ret_of_nil hs)⟩
  | cons a rest =>
    exact .inl ⟨a, rest, rfl, exec_unique h (exec_ret_of_cons hs)⟩

/-! ### Registers (R21) -/

/-- The two writes of a flag-writing instruction leave the other registers. -/
theorem readV_advance_writeFlagged_other (s : State) {x r : Nibble} (hx : r ≠ x) (hvf : r ≠ vf) (f b : Byte) :
    (s.advance.writeFlagged Params.hardware x f b).readV r = s.readV r := by
  rw [readV_writeFlagged_hardware, if_neg hx, if_neg hvf, readV_advance]

/-- Settles O50, by cases on the instruction: one register written, two, a run of registers, or none. -/
theorem instructionsWriteOnlyTheirRegisters : Obligations.InstructionsWriteOnlyTheirRegisters := by
  unfold Obligations.InstructionsWriteOnlyTheirRegisters
  intro i s t h r hr
  cases i
  case ldi | addi | mov | or | and | xor | gdt =>
    cases h
    exact readV_advance_writeV_other s (by simpa [Instr.mayWriteV] using hr) _
  case rnd x nn =>
    cases h
    exact (readV_rnd s x r _ _).trans (if_neg (by simpa [Instr.mayWriteV] using hr))
  case add | sub | shr | subn | shl =>
    cases h
    have hne := by simpa only [Instr.mayWriteV, Bool.or_eq_false_iff, beq_eq_false_iff_ne] using hr
    exact readV_advance_writeFlagged_other s hne.1 hne.2 _ _
  case drw x y n =>
    obtain rfl := exec_unique h (exec_drw x y n s)
    exact (readV_drw s _ _ _ r).trans (if_neg (by simpa [Instr.mayWriteV] using hr))
  case ldm x =>
    obtain rfl := exec_unique h (exec_ldm x s)
    have habove : x.toNat < r.toNat := by simpa [Instr.mayWriteV] using hr
    rw [readV_fillRegs_above _ (by simpa using habove), readV_advance]
  case call =>
    rcases exec_call_cases h with ⟨-, rfl⟩ | ⟨-, rfl⟩ <;> rfl
  case ret =>
    rcases exec_ret_cases h with ⟨a, rest, -, rfl⟩ | ⟨-, rfl⟩ <;> rfl
  case bcd x => obtain ⟨m, -, rfl⟩ := exec_bcd_next h; rfl
  case stm x => obtain ⟨m, -, rfl⟩ := exec_stm_next h; rfl
  all_goals cases h; rfl

/-! ### Memory (R54) -/

/-- An instruction leaves memory as it is, or stores its run of bytes at `I`. -/
theorem exec_mem {i : Instr} {s t : State} (h : exec i s = .next t) : t.mem = s.mem ∨
    ∃ bs, bs.length = i.storedBytes ∧ writeSpan Params.hardware s.mem s.i.toNat bs = some t.mem := by
  cases i
  case bcd x =>
    obtain ⟨m, hm, rfl⟩ := exec_bcd_next h
    exact .inr ⟨_, bcdDigits_length _, hm⟩
  case stm x =>
    obtain ⟨m, hm, rfl⟩ := exec_stm_next h
    exact .inr ⟨_, regsUpTo_length s x, hm⟩
  case call => rcases exec_call_cases h with ⟨-, rfl⟩ | ⟨-, rfl⟩ <;> exact .inl rfl
  case ret => rcases exec_ret_cases h with ⟨a, rest, -, rfl⟩ | ⟨-, rfl⟩ <;> exact .inl rfl
  case drw x y n => obtain rfl := exec_unique h (exec_drw x y n s); exact .inl rfl
  case ldm x => obtain rfl := exec_unique h (exec_ldm x s); exact .inl (fillRegs_mem _ _)
  all_goals cases h; exact .inl rfl

/-- Settles O51: the one change an instruction makes to memory is its run of bytes at `I`. -/
theorem instructionsWriteOnlyTheirBytes : Obligations.InstructionsWriteOnlyTheirBytes := by
  unfold Obligations.InstructionsWriteOnlyTheirBytes
  intro i s t h a ha
  rcases exec_mem h with hsame | ⟨bs, hlen, hbs⟩
  · rw [hsame]
  · exact read_writeSpan_other bs hbs (hlen ▸ ha)

/-! ### The other state -/

/-- Settles O52, by cases on the instruction: each result is the old state with the instruction's own fields replaced.
-/
theorem otherStateHasItsOwnWriters : Obligations.OtherStateHasItsOwnWriters := by
  unfold Obligations.OtherStateHasItsOwnWriters
  intro i s t h
  cases i
  case call =>
    rcases exec_call_cases h with ⟨-, rfl⟩ | ⟨hfull, rfl⟩
    · simp [Instr.mnemonic]
    · simp [Instr.mnemonic, Nat.not_lt.2 hfull]
  case ret =>
    rcases exec_ret_cases h with ⟨a, rest, -, rfl⟩ | ⟨hempty, rfl⟩
    · simp [Instr.mnemonic]
    · simp [Instr.mnemonic, State.sp, hempty]
  case bcd x => obtain ⟨m, -, rfl⟩ := exec_bcd_next h; simp
  case stm x => obtain ⟨m, -, rfl⟩ := exec_stm_next h; simp
  case cls => obtain rfl := exec_unique h (exec_cls s); simp [Instr.mnemonic]
  case drw x y n => obtain rfl := exec_unique h (exec_drw x y n s); simp [Instr.mnemonic]
  case ldm x => obtain rfl := exec_unique h (exec_ldm x s); simp
  all_goals cases h; simp [Instr.mnemonic]

/-- Settles O53, by cases on the instruction: what it computes mentions none of the three. -/
theorem noInstructionReadsSoundDirtyOrFault : Obligations.NoInstructionReadsSoundDirtyOrFault := by
  unfold Obligations.NoInstructionReadsSoundDirtyOrFault
  intro i s t a b r h
  cases i
  case call nnn =>
    rcases exec_call_cases h with ⟨hroom, rfl⟩ | ⟨hfull, rfl⟩
    · exact ⟨_, _, _, exec_call_of_room nnn hroom⟩
    · exact ⟨_, _, _, exec_call_of_full nnn hfull⟩
  case ret =>
    rcases exec_ret_cases h with ⟨d, rest, hs, rfl⟩ | ⟨hs, rfl⟩
    · exact ⟨_, _, _, exec_ret_of_cons hs⟩
    · exact ⟨_, _, _, exec_ret_of_nil hs⟩
  case bcd x =>
    obtain ⟨m, hm, rfl⟩ := exec_bcd_next h
    exact ⟨_, _, _, exec_bcd_of_writeSpan hm⟩
  case stm x =>
    obtain ⟨m, hm, rfl⟩ := exec_stm_next h
    exact ⟨_, _, _, exec_stm_of_writeSpan hm⟩
  case drw x y n => obtain rfl := exec_unique h (exec_drw x y n s); exact ⟨_, _, _, exec_drw x y n _⟩
  case ldm x => obtain rfl := exec_unique h (exec_ldm x s); exact ⟨a, b, r, exec_ldm x _⟩
  all_goals cases h; exact ⟨_, _, _, rfl⟩

end Sys2Proof.Machine
end

section
/-! PROOFS. The whole machine (10_state.md section 11, 60_exceptions.md, 70_reset_and_hazards.md section 4): what an
instruction does to the control state and what an operation does to the state, each said once, and from them the
statements about every step. -/

namespace Sys2Proof.Machine

/-! ### What an instruction does to mode, fault record, stack and `PC` -/

/-- Instruction `i` takes `s` to `t`, as far as the control state shows it. -/
inductive State.Transfers (s : State) : Instr → State → Prop
  | called {nnn : Addr} (room : s.sp < 16) :
      Transfers s (.call nnn) { s with pc := nnn.setWidth 16, stack := (s.pc + 2) :: s.stack }
  | overflowed {nnn : Addr} (full : 16 ≤ s.sp) :
      Transfers s (.call nnn) { s with
        mode := .faulted, faultRecord := some ⟨.stackOverflow, s.pc, 0x2#4 ++ nnn⟩ }
  | returned {a : Word} {rest : List Word} (nonempty : s.stack = a :: rest) :
      Transfers s .ret { s with pc := a, stack := rest }
  | underflowed (empty : s.stack = []) :
      Transfers s .ret { s with
        mode := .faulted, faultRecord := some ⟨.stackUnderflow, s.pc, 0x00EE#16⟩ }
  | suspended {x : Nibble} : Transfers s (.wkey x) { s.advance with mode := .awaitingKey x }
  | jumped {nnn : Addr} : Transfers s (.jp nnn) (s.jump (nnn.setWidth 16))
  | jumpedByV0 {nnn : Addr} : Transfers s (.jp0 nnn) (s.jump (nnn.setWidth 16 + (s.readV 0x0#4).setWidth 16))
  | passed {i : Instr} {t : State} (mode : t.mode = s.mode) (record : t.faultRecord = s.faultRecord)
      (stack : t.stack = s.stack) (pc : t.pc = s.pc + 2 ∨ t.pc = s.pc + 4) : Transfers s i t

theorem skipIf_transfers (s : State) (i : Instr) (c : Bool) : s.Transfers i (s.skipIf c) := by
  refine .passed rfl rfl rfl ?_
  cases c
  · exact .inl (skipIf_pc_false s)
  · exact .inr (skipIf_pc_true s)

theorem exec_transfers {i : Instr} {s t : State} (h : exec i s = .next t) : s.Transfers i t := by
  cases i
  case call nnn =>
    rcases exec_call_cases h with ⟨hroom, rfl⟩ | ⟨hfull, rfl⟩
    · exact .called hroom
    · exact .overflowed hfull
  case ret =>
    rcases exec_ret_cases h with ⟨a, rest, hs, rfl⟩ | ⟨hs, rfl⟩
    · exact .returned hs
    · exact .underflowed hs
  case wkey x => cases h; exact .suspended
  case jp nnn => cases h; exact .jumped
  case jp0 nnn => cases h; exact .jumpedByV0
  case se | sne | ser | sner | skp | sknp => cases h; exact skipIf_transfers s _ _
  case bcd x => obtain ⟨m, -, rfl⟩ := exec_bcd_next h; exact .passed rfl rfl rfl (.inl rfl)
  case stm x => obtain ⟨m, -, rfl⟩ := exec_stm_next h; exact .passed rfl rfl rfl (.inl rfl)
  case drw x y n => obtain rfl := exec_unique h (exec_drw x y n s); exact .passed rfl rfl rfl (.inl rfl)
  case ldm x =>
    obtain rfl := exec_unique h (exec_ldm x s)
    exact .passed (fillRegs_mode _ _) (fillRegs_faultRecord _ _) (fillRegs_stack _ _) (.inl (fillRegs_pc _ _))
  all_goals cases h; exact .passed rfl rfl rfl (.inl rfl)

/-! ### What an operation does -/

/-- Operation `op` takes `s` to `t`. -/
inductive State.Performs (s : State) : Op → State → Prop
  | executed {i : Instr} {t : State} (running : s.mode = .running) (known : decode s.opcodeAtPc = .ok i)
      (effect : exec i s = .next t) : Performs s .cycle t
  | skipped : Performs s .cycle s.advance
  | unchanged {op : Op} : Performs s op s
  | reset : Performs s .reset s.doReset
  | loaded {bytes : List Byte} (fits : bytes.length ≤ 3584) :
      Performs s (.load bytes) { s with mem := Memory.writeRun s.mem 0x200 bytes }
  | keysSet {k : Vector Bool 16} : Performs s (.setKeys k) { s with keys := k }
  | resolved {x : Nibble} {n : Nat} (waiting : s.mode = .awaitingKey x) (first : firstKey s.keys = some n) :
      Performs s .resolve { s.writeV x (BitVec.ofNat 8 n) with mode := .running }
  | ticked : Performs s .tick { s with dt := countDown s.dt, st := countDown s.st }
  | acknowledged : Performs s .dirtyAck { s with dirty := false }

theorem operate_performs {op : Op} {s t : State} (h : operate op s = .next t) : s.Performs op t := by
  cases op with
  | reset => cases h; exact .reset
  | setKeys k => cases h; exact .keysSet
  | cycle =>
    rcases cycle_cases h with ⟨-, e⟩ | ⟨i, hm, hd, e⟩ | ⟨r, -, -, e⟩
    · cases e; exact .unchanged
    · exact .executed hm hd e.symm
    · cases e; exact .skipped
  | load bytes =>
    cases h
    by_cases hok : s.mode ≠ .faulted ∧ bytes.length ≤ 3584
    · rw [doLoad_of_accepted hok]; exact .loaded hok.2
    · rw [doLoad_of_rejected hok]; exact .unchanged
  | resolve =>
    cases h
    by_cases hwait : ∃ x n, s.mode = .awaitingKey x ∧ firstKey s.keys = some n
    · obtain ⟨x, n, hm, hk⟩ := hwait
      rw [doResolve_of_key hm hk]; exact .resolved hm hk
    · have hsame : s.doResolve = s := by
        cases hk : firstKey s.keys with
        | none => exact doResolve_of_no_key hk
        | some n => exact doResolve_of_not_awaiting fun x hm => hwait ⟨x, n, hm, hk⟩
      rw [hsame]; exact .unchanged
  | tick =>
    cases h
    by_cases hc : tickCounts Params.hardware s = true
    · rw [doTick_of_counts hc]; exact .ticked
    · rw [doTick_of_not_counts hc]; exact .unchanged
  | dirtyAck =>
    cases h
    by_cases hf : s.mode = .faulted
    · rw [doDirtyAck_of_faulted hf]; exact .unchanged
    · rw [doDirtyAck_of_not_faulted hf]; exact .acknowledged

/-- A step performs the next operation on the state less that operation. -/
theorem step_performs {s t : State} (h : step s = .next t) : ∃ op, s.nextOp = op ∧ s.unschedule.Performs op t :=
  ⟨s.nextOp, rfl, operate_performs h⟩

/-! ### Keys, delay timer -/

theorem exec_keys {i : Instr} {s t : State} (h : exec i s = .next t) : t.keys = s.keys := by
  obtain ⟨-, -, -, -, -, -, -, hkeys, -⟩ := otherStateHasItsOwnWriters i s t h
  exact hkeys

/-- Settles O57, by cases on what the operation did. -/
theorem onlySetKeysWritesTheKeys : Obligations.OnlySetKeysWritesTheKeys := by
  unfold Obligations.OnlySetKeysWritesTheKeys
  intro s t h
  obtain ⟨op, hop, hperf⟩ := step_performs h
  cases hperf with
  | executed _ _ effect => exact .inl (exec_keys (s := s.unschedule) effect)
  | keysSet => exact .inr hop
  | skipped | unchanged | reset | loaded _ | resolved _ _ | ticked | acknowledged => exact .inl rfl

/-- The delay timer is written by SDT alone. -/
theorem exec_dt {i : Instr} {s t : State} (h : exec i s = .next t) :
    t.dt = s.dt ∨ ∃ x, i = .sdt x ∧ t.dt = s.readV x := by
  by_cases hsdt : i.mnemonic = "SDT"
  · cases i <;> simp only [Instr.mnemonic, String.reduceEq] at hsdt
    cases h
    exact .inr ⟨_, rfl, rfl⟩
  · obtain ⟨-, -, hdt, -⟩ := otherStateHasItsOwnWriters i s t h
    exact .inl (hdt hsdt)

/-- Settles O44, by cases on what the operation did: SDT writes the timer, TICK counts it down, RESET clears it. -/
theorem onlySdtRaisesTheDelayTimer : Obligations.OnlySdtRaisesTheDelayTimer := by
  unfold Obligations.OnlySdtRaisesTheDelayTimer
  intro s t h
  obtain ⟨op, hop, hperf⟩ := step_performs h
  cases hperf with
  | executed running known effect =>
    rcases exec_dt effect with hsame | ⟨x, rfl, hdt⟩
    · exact .inl (le_of_eq (congrArg BitVec.toNat hsame))
    · exact .inr ⟨x, ⟨hop, running, known⟩, hdt⟩
  | ticked => exact .inl ((countDown_toNat s.dt).trans_le (Nat.sub_le _ _))
  | reset => exact .inl (Nat.zero_le _)
  | skipped | unchanged | loaded _ | keysSet | resolved _ _ | acknowledged => exact .inl le_rfl

/-! ### Ways into `FAULTED` and into and out of the key wait -/

/-- The word a running instruction was decoded from is its encoding. -/
theorem encode_of_runs {s : State} {i : Instr} (h : s.runs i) : encode i = s.opcodeAtPc :=
  encodingADecodedWordGivesItBack _ _ h.2.2

/-- Settles O55, by cases on what the operation did: of the instructions only the two stack faults leave `FAULTED`, and
of the other operations none. -/
theorem onlyTheStackFaults : Obligations.OnlyTheStackFaults := by
  unfold Obligations.OnlyTheStackFaults
  intro s t h hbefore hafter
  obtain ⟨op, hop, hperf⟩ := step_performs h
  cases hperf with
  | executed running known effect =>
    have hruns : s.runs _ := ⟨hop, running, known⟩
    have hop_fetched := encode_of_runs hruns
    refine ⟨by rw [output_cycle_of_runs hruns h, if_pos hafter], ?_⟩
    cases exec_transfers effect with
    | overflowed full => exact .inl ⟨_, hruns, full, by rw [← hop_fetched]; rfl⟩
    | underflowed empty => exact .inr ⟨hruns, congrArg List.length empty, by rw [← hop_fetched]; rfl⟩
    | passed mode => exact absurd (mode.symm.trans hafter) hbefore
    | suspended => cases hafter
    | called _ | returned _ | jumped | jumpedByV0 => exact absurd hafter hbefore
  | reset | resolved _ _ => cases hafter
  | skipped | unchanged | loaded _ | keysSet | ticked | acknowledged => exact absurd hafter hbefore

/-- Settles O56, by cases on what the operation did: of the instructions, none of which runs in the wait, only WKEY
leaves one, and of the other operations only RESET and RESOLVE leave the core out of it. -/
theorem theKeyWaitHasOneWayIn : Obligations.TheKeyWaitHasOneWayIn := by
  unfold Obligations.TheKeyWaitHasOneWayIn
  intro s t x h
  obtain ⟨op, hop, hperf⟩ := step_performs h
  cases hperf with
  | executed running known effect =>
    refine ⟨fun hbefore hafter => ?_, fun hbefore => by cases running.symm.trans hbefore⟩
    cases exec_transfers effect with
    | suspended => cases hafter; exact ⟨hop, running, known⟩
    | passed mode => exact absurd (mode.symm.trans hafter) hbefore
    | overflowed _ | underflowed _ => cases hafter
    | called _ | returned _ | jumped | jumpedByV0 => exact absurd hafter hbefore
  | reset => exact ⟨fun _ hafter => (by cases hafter), fun _ _ => ⟨rfl, .inl hop⟩⟩
  | resolved waiting first =>
    refine ⟨fun _ hafter => (by cases hafter), fun hbefore _ => ⟨rfl, .inr ⟨hop, ?_⟩⟩⟩
    cases waiting.symm.trans hbefore
    obtain ⟨k, rfl, hdown, -⟩ := firstKey_eq_some_iff.1 first
    exact ⟨k, hdown, by rw [readV_resolved, if_pos rfl, keyByte_toNat]⟩
  | skipped | unchanged | loaded _ | keysSet | ticked | acknowledged =>
    exact ⟨fun hbefore hafter => absurd hafter hbefore, fun hbefore hafter => absurd hbefore hafter⟩

/-! ### Even addresses (R242) -/

theorem even_add_two {a : Word} (h : a.toNat % 2 = 0) : (a + 2).toNat % 2 = 0 := by bv_omega

theorem even_add_four {a : Word} (h : a.toNat % 2 = 0) : (a + 4).toNat % 2 = 0 := by bv_omega

/-- Settles O58, by cases on what the operation did: `PC` moves by 2 or 4, to a target given even, to a return address,
or to 0x200. -/
theorem evenJumpsKeepThePcEven : Obligations.EvenJumpsKeepThePcEven := by
  unfold Obligations.EvenJumpsKeepThePcEven
  intro s t h hpc hstack htarget hsum
  obtain ⟨op, hop, hperf⟩ := step_performs h
  cases hperf with
  | executed running known effect =>
    have hruns : s.runs _ := ⟨hop, running, known⟩
    cases exec_transfers effect with
    | called =>
      have heven := htarget _ hruns
      simp only [Instr.targetEven, beq_iff_eq] at heven
      refine ⟨by rwa [addr_setWidth_toNat], List.forall_mem_cons.2 ⟨even_add_two hpc, hstack⟩⟩
    | returned nonempty =>
      have hall := hstack
      rw [show s.stack = _ from nonempty] at hall
      exact List.forall_mem_cons.1 hall
    | jumped =>
      have heven := htarget _ hruns
      simp only [Instr.targetEven, beq_iff_eq] at heven
      exact ⟨by rwa [jump_pc, addr_setWidth_toNat], hstack⟩
    | jumpedByV0 => exact ⟨by rw [jump_pc, jp0_target_toNat]; exact hsum _ hruns, hstack⟩
    | passed mode record stack pc =>
      refine ⟨?_, stack ▸ hstack⟩
      rcases pc with hnext | hskip
      · exact hnext ▸ even_add_two hpc
      · exact hskip ▸ even_add_four hpc
    | suspended => exact ⟨even_add_two hpc, hstack⟩
    | overflowed _ | underflowed _ => exact ⟨hpc, hstack⟩
  | skipped => exact ⟨even_add_two hpc, hstack⟩
  | reset => exact ⟨show (0x0200#16).toNat % 2 = 0 by decide, List.forall_mem_nil _⟩
  | unchanged | loaded _ | keysSet | resolved _ _ | ticked | acknowledged => exact ⟨hpc, hstack⟩

/-! ### The invariant (R39) -/

/-- Settles O59: no byte is listed, no entry live, no fault recorded. -/
theorem theInvariantHoldsAtReset : Obligations.TheInvariantHoldsAtReset := by
  unfold Obligations.TheInvariantHoldsAtReset
  exact ⟨wf_nil, by decide, by decide⟩

/-- What RESET keeps, the keys and the model's own fields, is no part of the invariant. -/
theorem doReset_inv (s : State) : s.doReset.Inv := by
  obtain ⟨hwf, hsp, hrec⟩ := theInvariantHoldsAtReset
  exact ⟨hwf, hsp, hrec⟩

/-- An instruction keeps memory in canonical form. -/
theorem exec_keeps_wf {i : Instr} {s t : State} (hwf : Memory.wf s.mem = true) (h : exec i s = .next t) :
    Memory.wf t.mem = true := by
  rcases exec_mem h with hsame | ⟨bs, -, hbs⟩
  · rwa [hsame]
  · exact writeSpan_wf bs hwf hbs

/-- An instruction keeps the stack within its depth: CALL pushes with room only. -/
theorem exec_keeps_depth {i : Instr} {s t : State} (hsp : s.sp ≤ 16) (h : exec i s = .next t) : t.sp ≤ 16 := by
  cases exec_transfers h with
  | called room => exact room
  | returned nonempty =>
    rw [sp_of_cons nonempty] at hsp
    exact Nat.le_of_succ_le hsp
  | passed _ _ stack => exact (congrArg List.length stack).trans_le hsp
  | overflowed _ | underflowed _ | suspended | jumped | jumpedByV0 => exact hsp

/-- An instruction of a running core keeps a fault recorded exactly in `FAULTED`: the two stack faults set both, and
WKEY leaves a mode and a record of no fault. -/
theorem exec_keeps_record {i : Instr} {s t : State} (hm : s.mode = .running)
    (hrec : s.mode = .faulted ↔ s.faultRecord.isSome) (h : exec i s = .next t) :
    t.mode = .faulted ↔ t.faultRecord.isSome := by
  cases exec_transfers h with
  | passed mode record => rwa [mode, record]
  | overflowed _ | underflowed _ => exact iff_of_true rfl rfl
  | suspended =>
    have no_record : ¬ s.faultRecord.isSome := fun hsome => absurd (hm.symm.trans (hrec.2 hsome)) (by decide)
    exact iff_of_false (by simp) no_record
  | called _ | returned _ | jumped | jumpedByV0 => exact hrec

/-- Every operation keeps the invariant. -/
theorem operate_keeps_inv (op : Op) (s t : State) (hinv : s.Inv) (h : operate op s = .next t) : t.Inv := by
  obtain ⟨hwf, hsp, hrec⟩ := hinv
  cases operate_performs h with
  | executed running _ effect =>
    exact ⟨exec_keeps_wf hwf effect, exec_keeps_depth hsp effect, exec_keeps_record running hrec effect⟩
  | reset => exact doReset_inv s
  | loaded fits => exact ⟨writeRun_wf _ hwf (Nat.add_le_add_left fits 0x200), hsp, hrec⟩
  | resolved waiting =>
    have no_record : ¬ s.faultRecord.isSome := fun hsome => by cases waiting.symm.trans (hrec.2 hsome)
    exact ⟨hwf, hsp, iff_of_false (by simp) no_record⟩
  | skipped | unchanged | keysSet | ticked | acknowledged => exact ⟨hwf, hsp, hrec⟩

/-- Settles O60: every operation keeps the invariant, so a step does, the schedule being no part of it, and so do the
operations of a run one after another. -/
theorem everyStepKeepsTheInvariant : Obligations.EveryStepKeepsTheInvariant := by
  unfold Obligations.EveryStepKeepsTheInvariant
  intro s t hinv
  have hinv_unschedule : s.unschedule.Inv := ⟨hinv.mem, hinv.stack, hinv.record⟩
  exact ⟨operate_keeps_inv s.nextOp s.unschedule t hinv_unschedule,
    fun ops n => run_keeps operate_keeps_inv ops hinv n t⟩

end Sys2Proof.Machine
end
